-- ==== Sys2Proof/Word.lean ====
section
/-! DEFINITION. The bit-vector types of the block: bytes, 16-bit values, 9-bit wire symbols and line levels. -/

namespace Sys2Proof

/-- A byte: 8 bits, unsigned (00_scope.md section 6). -/
abbrev Byte := BitVec 8

/-- A 16-bit value: a window coordinate, a frame-buffer address operand or a pixel. -/
abbrev Half := BitVec 16

/-- A wire symbol `{dc, b[7:0]}`: bit 8 is the mode-select level, bits 7 to 0 the byte (30_encoding.md R91). -/
abbrev Symbol := BitVec 9

/-- The level of a line, 0 (low) or 1 (high) (00_scope.md section 6). -/
abbrev Level := BitVec 1

/-- Level 0. -/
abbrev low : Level := 0#1

/-- Level 1. -/
abbrev high : Level := 1#1

end Sys2Proof
end

