-- ==== Sys2Proof/Config.lean ====
section
/-! DEFINITION. What is fixed for one block: the constants of the spec, the parameters of 00_scope.md R9 and R10, and the
free values (constants with no body, of which nothing can be proved). -/

namespace Sys2Proof

/-- How the data bytes of one command are framed (40_bus_transactions.md R128). OPEN: both values are behaviours. -/
inductive ArgFraming where
  | perEntry   -- one data frame carries them all
  | perByte    -- one data frame for each byte
  deriving DecidableEq, Repr, Inhabited

/-- Byte order of a 16-bit pixel in the frame buffer (20_memory.md R65). OPEN; no operation of the block reads it. -/
inductive PixelByteOrder where
  | little
  | big
  deriving DecidableEq, Repr, Inhabited

/-- Order of the bits of a byte on the serial channel (20_memory.md R63). Recorded, used by no rule. -/
inductive BitOrder where
  | msbFirst
  | lsbFirst
  deriving DecidableEq, Repr, Inhabited

/-- The panel commands the source names (30_encoding.md R96 and R97). -/
inductive CmdName where
  | caset | raset | ramwr
  | madctl | colmod | porch | gammaPos | gammaNeg
  | pixaddrMode | sleepOut | displayOn
  deriving DecidableEq, Repr, Inhabited

/-- Every name, in the order of R96 and then R97. -/
def CmdName.all : List CmdName :=
  [.caset, .raset, .ramwr, .madctl, .colmod, .porch, .gammaPos, .gammaNeg, .pixaddrMode, .sleepOut, .displayOn]

/-- The command bytes `CMD_*`: parameters of type byte; no rule depends on a value (30_encoding.md R95). -/
structure CmdBytes where
  caset       : Byte
  raset       : Byte
  ramwr       : Byte
  madctl      : Byte
  colmod      : Byte
  porch       : Byte
  gammaPos    : Byte
  gammaNeg    : Byte
  pixaddrMode : Byte
  sleepOut    : Byte
  displayOn   : Byte
  deriving DecidableEq, Repr, Inhabited

/-- The byte of a named command. -/
def CmdBytes.byteOf (b : CmdBytes) : CmdName → Byte
  | .caset => b.caset
  | .raset => b.raset
  | .ramwr => b.ramwr
  | .madctl => b.madctl
  | .colmod => b.colmod
  | .porch => b.porch
  | .gammaPos => b.gammaPos
  | .gammaNeg => b.gammaNeg
  | .pixaddrMode => b.pixaddrMode
  | .sleepOut => b.sleepOut
  | .displayOn => b.displayOn

/-- PRESUMED, unsafe (log entry 5): the default command bytes of 30_encoding.md R96 and R97, which the spec itself marks
as general knowledge. The opcode table's rows carry them as match values. -/
def CmdBytes.default : CmdBytes where
  caset := 0x2A
  raset := 0x2B
  ramwr := 0x2C
  madctl := 0x36
  colmod := 0x3A
  porch := 0xB2
  gammaPos := 0xE0
  gammaNeg := 0xE1
  pixaddrMode := 0x21
  sleepOut := 0x11
  displayOn := 0x29

/-- An entry of the initialization table: a command byte and zero or more data bytes (30_encoding.md R98). -/
abbrev InitEntry := Byte × List Byte

/-- The initialization table (10_state.md R31). -/
abbrev InitTable := List InitEntry

/-- The construction parameters `CFG` (10_state.md R27). DESIGN CHOICE, unsafe (log entry 17): an identity, "opaque
identifier", is a natural number, and `BUS_HZ`, "positive number, hertz", is a natural number of hertz, a fraction of a hertz
having no counterpart and 0 not shut out. -/
structure Cfg where
  csId   : Nat
  rstId  : Nat
  dcId   : Nat
  sckId  : Nat
  mosiId : Nat
  blId   : Nat
  busId  : Nat
  busHz  : Nat
  cpol   : Level
  cpha   : Level
  deriving DecidableEq, Repr, Inhabited

/-- The parameters of the model (00_scope.md R9, R10; 10_state.md R36: "no operation changes them"). They are plain data
inside State, so that a statement over every state is a statement over every value of them. -/
structure Params where
  /-- The command bytes (30_encoding.md R96, R97). -/
  cmd                : CmdBytes
  /-- INIT_TABLE (41_reset_init.md R146). -/
  initTable          : InitTable
  /-- GAMMA_LEN (41_reset_init.md R148). -/
  gammaLen           : Nat
  /-- ARG_FRAMING (40_bus_transactions.md R128). -/
  argFraming         : ArgFraming
  /-- PIXEL_BYTE_ORDER (20_memory.md R65). -/
  pixelByteOrder     : PixelByteOrder
  /-- FB_INIT, byte `a` at index `a` (10_state.md R30). -/
  fbInit             : List Byte
  /-- RAW_BUS_ACCESS (30_encoding.md R108). -/
  rawBusAccess       : Bool
  /-- CONCURRENT_FB_WRITE (70_reset_and_hazards.md R241). -/
  concurrentFbWrite  : Bool
  /-- The construction parameters the HOST gives to CONSTRUCT (00_scope.md R9, 41_reset_init.md R155). -/
  construction       : Cfg
  deriving DecidableEq, Repr, Inhabited

/-- `WIDTH` (00_scope.md R8). -/
def Config.width : Nat := 240

/-- `HEIGHT` (00_scope.md R8). -/
def Config.height : Nat := 135

/-- `DEPTH` (00_scope.md R8). -/
def Config.depth : Nat := 16

/-- `FB_SIZE = WIDTH * HEIGHT * 2 = 64800` bytes (00_scope.md R8). -/
def Config.fbSize : Nat := 64800

/-- `PIXELS = WIDTH * HEIGHT = 32400` (00_scope.md R8). -/
def Config.pixels : Nat := 32400

/-- `XS`, column start (10_state.md R24). -/
def Config.xs : Half := 0x0028

/-- `XE`, column end (10_state.md R24). -/
def Config.xe : Half := 0x0117

/-- `YS`, row start (10_state.md R24). -/
def Config.ys : Half := 0x0035

/-- `YE`, row end (10_state.md R24). -/
def Config.ye : Half := 0x00BB

/-- `T_HOLD_MIN = 10 ms` (41_reset_init.md R141), in nanoseconds. DESIGN CHOICE, unsafe (log entry 10): a duration is a
whole number of nanoseconds. -/
def Config.tHoldMin : Nat := 10000000

/-- `BUS_HZ` default, 10 MHz (00_scope.md R9). -/
def Config.busHzDefault : Nat := 10000000

/-- `GAMMA_LEN` default (41_reset_init.md R148). -/
def Config.gammaLenDefault : Nat := 13

/-- `MAX_PAYLOAD = 2^32 - 1` (30_encoding.md R104). -/
def Config.maxPayload : Nat := 2 ^ 32 - 1

/-- `BIT_ORDER` (20_memory.md R63): recorded, read by no rule. -/
def Config.bitOrder : BitOrder := .msbFirst

/-- Free value (log entry 10): by how many nanoseconds a hold exceeds its lower bound, for each draw
(40_bus_transactions.md R122). -/
opaque Config.holdExtra : Nat → Nat

/-- Free value (log entry 11): whether, at a draw, the second writer of the frame buffer moves before the sequencer does
(70_reset_and_hazards.md R241: the interleaving is unconstrained). -/
opaque Config.writerMoves : Nat → Bool

/-- Free value (log entry 3): FB_INIT at power-on (10_state.md R30, "any 64800 bytes"). -/
opaque Config.fbInit : List Byte

/-- Free value (log entry 4): INIT_TABLE at power-on, before it is given the shape WF_INIT asks for (`shapedTable`); OPEN
(41_reset_init.md R146). -/
opaque Config.initTable : InitTable

/-- Free value (log entry 4): ARG_FRAMING at power-on; OPEN (40_bus_transactions.md R128). -/
opaque Config.argFraming : ArgFraming

/-- Free value (log entry 4): PIXEL_BYTE_ORDER at power-on; OPEN (20_memory.md R65). -/
opaque Config.pixelByteOrder : PixelByteOrder

/-- Free value (log entry 4): the construction parameters without a stated default; OPEN (00_scope.md R9). -/
opaque Config.construction : Cfg

end Sys2Proof
end

