-- ==== Sys2Proof/Syntax.lean ====
section
/-! DEFINITION. The instruction set: one constructor for each row of spec/opcode_table.json. -/

namespace Sys2Proof

/-- The operations. Ten host descriptors (30_encoding.md R100, R103), the two wire frames as the sequencer sends them
(R91), the eleven named panel commands as steps of the sequencer (R96, R97) and the generic table entry (R98). -/
inductive Instr where
  /-- CONSTRUCT: power-on entry of the block (41_reset_init.md R155). -/
  | construct
  /-- RESET: the hardware reset pulse (41_reset_init.md R142). -/
  | reset
  /-- INITIALIZE: reset, then the whole table (41_reset_init.md R150). -/
  | initPanel
  /-- FLUSH: the whole frame buffer to the panel (42_flush.md R174). -/
  | flush
  /-- SHOW: the source's second name for FLUSH (42_flush.md R177). -/
  | showFrame
  /-- FB_WRITE a, b (43_buffer_access.md R191). -/
  | fbWrite (a : Half) (b : Byte)
  /-- FB_READ a (43_buffer_access.md R192). -/
  | fbRead (a : Half)
  /-- BL_ID: the identity of the backlight line (43_buffer_access.md R195). -/
  | blId
  /-- SEND_COMMAND c, issued by the HOST (40_bus_transactions.md R124, 30_encoding.md R108). -/
  | sendCommand (c : Byte)
  /-- SEND_DATA bs, issued by the HOST (40_bus_transactions.md R125, 30_encoding.md R108). -/
  | sendData (bs : List Byte)
  /-- WC: a command frame, sent by the sequencer (40_bus_transactions.md R124). -/
  | wireCommand (c : Byte)
  /-- WD: a data frame, sent by the sequencer (40_bus_transactions.md R125). -/
  | wireData (bs : List Byte)
  /-- CMD_CASET: step 1 of a flush, the column window (42_flush.md R172). -/
  | cmdCaset
  /-- CMD_RASET: step 2 of a flush, the row window (42_flush.md R172). -/
  | cmdRaset
  /-- CMD_RAMWR: step 3 of a flush, the memory-write command (42_flush.md R173). -/
  | cmdRamwr
  /-- CMD_MADCTL with its data bytes (41_reset_init.md R147). -/
  | cmdMadctl (ds : List Byte)
  /-- CMD_COLMOD with its data bytes (41_reset_init.md R147). -/
  | cmdColmod (ds : List Byte)
  /-- CMD_PORCH with its data bytes (41_reset_init.md R147). -/
  | cmdPorch (ds : List Byte)
  /-- CMD_GAMMA_POS with its data bytes (41_reset_init.md R148). -/
  | cmdGammaPos (ds : List Byte)
  /-- CMD_GAMMA_NEG with its data bytes (41_reset_init.md R148). -/
  | cmdGammaNeg (ds : List Byte)
  /-- CMD_PIXADDR_MODE, bare (41_reset_init.md R149). -/
  | cmdPixaddrMode
  /-- CMD_SLEEP_OUT, bare (41_reset_init.md R149). -/
  | cmdSleepOut
  /-- CMD_DISPLAY_ON, bare (41_reset_init.md R149). -/
  | cmdDisplayOn
  /-- INIT_ENTRY: one entry `(c, ds)` of the table (40_bus_transactions.md R127). -/
  | initEntry (c : Byte) (ds : List Byte)
  deriving DecidableEq, Repr, Inhabited

end Sys2Proof
end

