-- ==== Sys2Proof/WellFormed.lean ====
section
/-! DEFINITION. Which instructions are well formed: the operand ranges the spec gives (30_encoding.md R100, R106). -/

namespace Sys2Proof

/-- The operand ranges. An ill-formed host operation is refused by its meaning (60_exceptions.md R203); an ill-formed
table entry is still sent (41_reset_init.md R145). -/
def Instr.wellFormed (p : Params) : Instr → Bool
  | .construct => true
  | .reset => true
  | .initPanel => true
  | .flush => true
  | .showFrame => true
  | .fbWrite a _ => decide (a.toNat < Config.fbSize)
  | .fbRead a => decide (a.toNat < Config.fbSize)
  | .blId => true
  | .sendCommand _ => true
  | .sendData bs => decide (1 ≤ bs.length) && decide (bs.length ≤ Config.maxPayload)
  | .wireCommand _ => true
  | .wireData bs => decide (1 ≤ bs.length)
  | .cmdCaset => true
  | .cmdRaset => true
  | .cmdRamwr => true
  | .cmdMadctl ds => decide (1 ≤ ds.length) && decide (ds.length ≤ 255)
  | .cmdColmod ds => decide (1 ≤ ds.length) && decide (ds.length ≤ 255)
  | .cmdPorch ds => decide (ds.length ≤ 255)
  | .cmdGammaPos ds => decide (ds.length = p.gammaLen)
  | .cmdGammaNeg ds => decide (ds.length = p.gammaLen)
  | .cmdPixaddrMode => true
  | .cmdSleepOut => true
  | .cmdDisplayOn => true
  | .initEntry _ ds => decide (ds.length ≤ 255)

end Sys2Proof
end

