-- ==== Sys2Proof/Decode.lean ====
section
/-! DEFINITION. The decoder of host descriptors (30_encoding.md R101 to R107) and of wire symbols as the sequencer's port
takes them (R91, R111), the encoder written from the same tables, and the host's entry decodeTableWord. -/

namespace Sys2Proof

/-- What the descriptor decoder answers: an operation with the bytes after it, or one of its two verdicts
(60_exceptions.md R203: `invalid_op`, `truncated`). -/
inductive Decoded where
  | ok (i : Instr) (rest : List Byte)
  | invalidOp
  | truncated
  deriving DecidableEq, Repr

/-- The words of one instruction: a descriptor's bytes, or the wire symbols of one frame group. -/
inductive Code where
  | descriptor (bs : List Byte)
  | frame (ss : List Symbol)
  deriving DecidableEq, Repr

/-! ## Byte order -/

/-- `{hi, lo}` of two bytes (00_scope.md section 6): descriptor operands are big-endian (30_encoding.md R102). -/
def be16 (hi lo : Byte) : Half := hi ++ lo

/-- Four bytes, the most significant first (30_encoding.md R102, format H4). -/
def be32 (b3 b2 b1 b0 : Byte) : BitVec 32 := b3 ++ b2 ++ b1 ++ b0

/-- `hi8(v) = v[15:8]` (00_scope.md section 6). -/
def hi8 (v : Half) : Byte := v.extractLsb' 8 8

/-- `lo8(v) = v[7:0]` (00_scope.md section 6). -/
def lo8 (v : Half) : Byte := v.extractLsb' 0 8

/-- The 9-bit symbol `{dc, b}` (30_encoding.md R91). -/
def mkSymbol (dc : Level) (b : Byte) : Symbol := dc ++ b

/-- Bit 8 of a symbol. -/
def symbolDc (s : Symbol) : Level := s.extractLsb' 8 1

/-- Bits 7 to 0 of a symbol. -/
def symbolByte (s : Symbol) : Byte := s.extractLsb' 0 8

/-! ## Host descriptors -/

/-- Format H1 after its first byte: `a[15:8]`, `a[7:0]`, `b` (30_encoding.md R102). -/
def decodeH1 : List Byte → Decoded
  | a1 :: a0 :: b :: rest => .ok (.fbWrite (be16 a1 a0) b) rest
  | _ => .truncated

/-- Format H2 after its first byte: `a[15:8]`, `a[7:0]`. -/
def decodeH2 : List Byte → Decoded
  | a1 :: a0 :: rest => .ok (.fbRead (be16 a1 a0)) rest
  | _ => .truncated

/-- Format H3 after its first byte: `c`. -/
def decodeH3 : List Byte → Decoded
  | c :: rest => .ok (.sendCommand c) rest
  | _ => .truncated

/-- Format H4 after its first byte: the length `n` in four bytes, then `n` payload bytes. -/
def decodeH4 : List Byte → Decoded
  | n3 :: n2 :: n1 :: n0 :: rest =>
    if rest.length < (be32 n3 n2 n1 n0).toNat then .truncated
    else .ok (.sendData (rest.take (be32 n3 n2 n1 n0).toNat)) (rest.drop (be32 n3 n2 n1 n0).toNat)
  | _ => .truncated

/-- The first descriptor of a byte stream and the bytes after it (30_encoding.md R103, R105, R106: "Trailing bytes after
a complete descriptor are the start of the next descriptor"). Which refusals depend on operands or on the state
(`bad_address`, `empty_payload`, `raw_not_admitted`) is the meanings' business, since 60_exceptions.md R206 reports
them after `not_constructed`. -/
def decodeHost : List Byte → Decoded
  | [] => .truncated
  | op :: rest =>
    match op.toNat with
    | 0x00 => .ok .construct rest
    | 0x01 => .ok .reset rest
    | 0x02 => .ok .initPanel rest
    | 0x03 => .ok .flush rest
    | 0x04 => decodeH1 rest
    | 0x05 => decodeH2 rest
    | 0x06 => .ok .blId rest
    | 0x10 => decodeH3 rest
    | 0x11 => decodeH4 rest
    | _ => .invalidOp

/-! ## Wire symbols -/

/-- The name whose parameter is this command byte (30_encoding.md R111: "a command whose byte is compared with the `CMD_*`
parameters"). DESIGN CHOICE, unsafe (log entry 8): where two names share a byte, the first in the order of R96 and R97. -/
def CmdBytes.nameOf (b : CmdBytes) (c : Byte) : Option CmdName :=
  CmdName.all.find? (fun n => b.byteOf n == c)

/-- The instruction a command byte with data bytes stands for. A command symbol alone selects the named step (its fixed
window payload is no operand); data bytes after a command that takes no data operand make it a plain table entry. -/
def nameCommand (b : CmdBytes) (c : Byte) (ds : List Byte) : Instr :=
  match b.nameOf c with
  | some .caset => if ds = [] then .cmdCaset else .initEntry c ds
  | some .raset => if ds = [] then .cmdRaset else .initEntry c ds
  | some .ramwr => if ds = [] then .cmdRamwr else .initEntry c ds
  | some .madctl => .cmdMadctl ds
  | some .colmod => .cmdColmod ds
  | some .porch => .cmdPorch ds
  | some .gammaPos => .cmdGammaPos ds
  | some .gammaNeg => .cmdGammaNeg ds
  | some .pixaddrMode => if ds = [] then .cmdPixaddrMode else .initEntry c ds
  | some .sleepOut => if ds = [] then .cmdSleepOut else .initEntry c ds
  | some .displayOn => if ds = [] then .cmdDisplayOn else .initEntry c ds
  | none => if ds = [] then .wireCommand c else .initEntry c ds

/-- One frame group of the sequencer's port: a command symbol and the data symbols that belong to it, or the data symbols
of one data frame. A group that is empty, or has a command symbol after its first, is rejected (30_encoding.md R91, R92). -/
def decodeFrame (b : CmdBytes) : List Symbol → Option Instr
  | [] => none
  | s :: ss =>
    if ss.all (fun x => symbolDc x == high) then
      if symbolDc s = low then some (nameCommand b (symbolByte s) (ss.map symbolByte))
      else some (.wireData ((s :: ss).map symbolByte))
    else none

/-- Decoding of one instruction's words, all of them used. -/
def decode (b : CmdBytes) : Code → Option Instr
  | .descriptor bs =>
    match decodeHost bs with
    | .ok i [] => some i
    | _ => none
  | .frame ss => decodeFrame b ss

/-! ## The encoder -/

/-- Two bytes of a 16-bit operand, big-endian (30_encoding.md R102). -/
def bytes16 (v : Half) : List Byte := [hi8 v, lo8 v]

/-- Four bytes of a 32-bit length, big-endian. -/
def bytes32 (v : BitVec 32) : List Byte :=
  [v.extractLsb' 24 8, v.extractLsb' 16 8, v.extractLsb' 8 8, v.extractLsb' 0 8]

/-- A command symbol and its data symbols. -/
def frameGroup (c : Byte) (ds : List Byte) : List Symbol :=
  mkSymbol low c :: ds.map (mkSymbol high)

/-- The words of an instruction, from 30_encoding.md R91, R102, R103 and the opcode table. DESIGN CHOICE, unsafe (log
entry 21), for two instructions to which the spec gives no words: a SEND_DATA of more than `MAX_PAYLOAD` bytes (R104) has its
length modulo 2^32 and all the bytes after it; a data frame of no bytes is an empty group. -/
def encode (b : CmdBytes) : Instr → Code
  | .construct => .descriptor [0x00]
  | .reset => .descriptor [0x01]
  | .initPanel => .descriptor [0x02]
  | .flush => .descriptor [0x03]
  | .showFrame => .descriptor [0x03]
  | .fbWrite a v => .descriptor (0x04 :: bytes16 a ++ [v])
  | .fbRead a => .descriptor (0x05 :: bytes16 a)
  | .blId => .descriptor [0x06]
  | .sendCommand c => .descriptor [0x10, c]
  | .sendData bs => .descriptor (0x11 :: bytes32 (BitVec.ofNat 32 bs.length) ++ bs)
  | .wireCommand c => .frame (frameGroup c [])
  | .wireData bs => .frame (bs.map (mkSymbol high))
  | .cmdCaset => .frame (frameGroup b.caset [])
  | .cmdRaset => .frame (frameGroup b.raset [])
  | .cmdRamwr => .frame (frameGroup b.ramwr [])
  | .cmdMadctl ds => .frame (frameGroup b.madctl ds)
  | .cmdColmod ds => .frame (frameGroup b.colmod ds)
  | .cmdPorch ds => .frame (frameGroup b.porch ds)
  | .cmdGammaPos ds => .frame (frameGroup b.gammaPos ds)
  | .cmdGammaNeg ds => .frame (frameGroup b.gammaNeg ds)
  | .cmdPixaddrMode => .frame (frameGroup b.pixaddrMode [])
  | .cmdSleepOut => .frame (frameGroup b.sleepOut [])
  | .cmdDisplayOn => .frame (frameGroup b.displayOn [])
  | .initEntry c ds => .frame (frameGroup c ds)

/-- The instructions that are the decoder's own spelling of their words. SHOW shares FLUSH's code (42_flush.md R177); a
command frame or a table entry whose byte is a named command's is that command; an entry with no data is a command
frame. -/
def Instr.canonical (b : CmdBytes) : Instr → Bool
  | .showFrame => false
  | .wireCommand c => (b.nameOf c).isNone
  | .initEntry c ds =>
    decide (ds ≠ []) &&
      match b.nameOf c with
      | some .madctl => false
      | some .colmod => false
      | some .porch => false
      | some .gammaPos => false
      | some .gammaNeg => false
      | _ => true
  | _ => true

/-- The command bytes are pairwise different (no rule requires it: 30_encoding.md R95). -/
def CmdBytes.distinct (b : CmdBytes) : Bool :=
  decide ((CmdName.all.map b.byteOf).Nodup)

/-! ## The initialization table as a ROM image (30_encoding.md R98) -/

/-- Per entry: `c`, `n = len(ds)`, then `ds`; entries without padding. DESIGN CHOICE, unsafe (log entry 19): the layout
gives `n` as 0 to 255 and says nothing of a longer entry; here its `n` is the length modulo 256, with all the bytes after it. -/
def encodeRom : InitTable → List Byte
  | [] => []
  | (c, ds) :: t => c :: BitVec.ofNat 8 ds.length :: ds ++ encodeRom t

/-- Reading an image back, with as much fuel as it has bytes; `none` where it ends inside an entry. -/
def decodeRomFuel : Nat → List Byte → Option InitTable
  | _, [] => some []
  | 0, _ => none
  | fuel + 1, c :: n :: rest =>
    if rest.length < n.toNat then none
    else (decodeRomFuel fuel (rest.drop n.toNat)).map (fun t => (c, rest.take n.toNat) :: t)
  | _, [_] => none

/-- The table of an image. -/
def decodeRom (bs : List Byte) : Option InitTable := decodeRomFuel bs.length bs

/-! ## The opcode table's words -/

/-- Is a word of this width a wire symbol? The table's wire rows have 9 bits, two bytes when rounded up; of the host rows
only SEND_COMMAND (0x10 in byte 0) has two bytes. -/
def isSymbolWord (nbits w : Nat) : Bool :=
  nbits == 9 || (nbits == 16 && w % 256 != 0x10)

/-- The bytes of a word, byte 0 from its least significant bits. -/
def wordBytes (nbits w : Nat) : List Byte :=
  (List.range ((nbits + 7) / 8)).map (fun k => BitVec.ofNat 8 (w >>> (8 * k)))

/-- The payload bytes above a SEND_DATA header, all zero, as many as the header says. -/
def zeroPayload : List Byte → List Byte
  | op :: n3 :: n2 :: n1 :: n0 :: _ =>
    if op = 0x11 then List.replicate (be32 n3 n2 n1 n0).toNat 0 else []
  | _ => []

/-- The words of a row of spec/opcode_table.json whose bits are `w`. -/
def tableCode (nbits w : Nat) : Code :=
  if isSymbolWord nbits w then .frame [BitVec.ofNat 9 w]
  else .descriptor (wordBytes nbits w ++ zeroPayload (wordBytes nbits w))

/-- The instruction the decoder reads from a table row's word. -/
def decodeTableWord (nbits w : Nat) : Option Instr :=
  decode CmdBytes.default (tableCode nbits w)

end Sys2Proof
end

