-- ==== Sys2Proof/Machine/Table.lean ====
section
/-! DEFINITION. The initialization table's shape (WF_INIT, 41_reset_init.md R146), and the parameters at power-on, whose
table has it (00_scope.md R10, 10_state.md R31). -/

namespace Sys2Proof.Machine

/-- Is an entry a gamma table: this command, GAMMA_LEN data bytes (41_reset_init.md R148)? -/
def isGamma (c : Byte) (len : Nat) (e : InitEntry) : Bool :=
  decide (e.1 = c) && decide (e.2.length = len)

/-- Two entries at different places, one of each kind, in a list: for clause (c) of WF_INIT. -/
def hasDistinctPair (f g : InitEntry → Bool) : List InitEntry → Bool
  | [] => false
  | e :: es => (f e && es.any g) || (g e && es.any f) || hasDistinctPair f g es

/-- The three bare commands a table ends with (41_reset_init.md R149). -/
def bareEnding (b : CmdBytes) : InitTable := [(b.pixaddrMode, []), (b.sleepOut, []), (b.displayOn, [])]

/-- `WF_INIT(T)` (41_reset_init.md R146), clauses (a) to (e) in order. -/
def wfInit (b : CmdBytes) (gammaLen : Nat) (t : InitTable) : Bool :=
  decide (8 ≤ t.length)
    && decide (t.drop (t.length - 3) = bareEnding b)
    && hasDistinctPair (isGamma b.gammaPos gammaLen) (isGamma b.gammaNeg gammaLen) (t.take (t.length - 3))
    && (t.take (t.length - 3)).any (fun e => decide (e.1 = b.madctl) && decide (1 ≤ e.2.length))
    && (t.take (t.length - 3)).any (fun e => decide (e.1 = b.colmod) && decide (1 ≤ e.2.length))
    && (t.take (t.length - 3)).any (fun e => decide (e.1 = b.porch))
    && t.all (fun e => decide (e.2.length ≤ 255))

/-- The eight entries that the clauses of WF_INIT require, and no more (R146, the note on clause (a)). The data bytes are
not in the source (R147, R148); those here carry no meaning (log entry 4). -/
def leastTable (b : CmdBytes) (gammaLen : Nat) : InitTable :=
  [(b.madctl, [0]), (b.colmod, [0]), (b.porch, []), (b.gammaPos, List.replicate gammaLen 0),
    (b.gammaNeg, List.replicate gammaLen 0)] ++ bareEnding b

/-- A table made to satisfy WF_INIT: itself where it does, so that the tables this answers are all those that do. -/
def shapedTable (b : CmdBytes) (gammaLen : Nat) (t : InitTable) : InitTable :=
  if wfInit b gammaLen t = true then t else leastTable b gammaLen

end Sys2Proof.Machine

namespace Sys2Proof

/-- The parameters at power-on: the values 00_scope.md R10 states, its defaults where it gives them, free values where it
says OPEN or unspecified. INIT_TABLE is OPEN and "must satisfy `WF_INIT`": the free table, given that shape (log
entry 4). -/
def Params.default : Params where
  cmd := CmdBytes.default
  initTable := Machine.shapedTable CmdBytes.default Config.gammaLenDefault Config.initTable
  gammaLen := Config.gammaLenDefault
  argFraming := Config.argFraming
  pixelByteOrder := Config.pixelByteOrder
  fbInit := Config.fbInit
  rawBusAccess := false
  concurrentFbWrite := false
  construction := { Config.construction with busHz := Config.busHzDefault }

end Sys2Proof
end

