-- ==== Sys2Proof/Machine/State.lean ====
section
/-! DEFINITION. The machine's state as plain data (10_state.md R20), the reasons it can stop, and the state at power-on. -/

namespace Sys2Proof.Machine

/-- The lifecycle register's values (10_state.md R26). -/
inductive Life where
  | unpowered
  | resetting
  | initializing
  | ready
  deriving DecidableEq, Repr, Inhabited

/-- The three control lines (10_state.md R21 to R23). -/
inductive Line where
  | cs
  | dc
  | rst
  deriving DecidableEq, Repr, Inhabited

/-- The events of the wire trace (00_scope.md R12). A duration is a number of nanoseconds (log entry 10). -/
inductive Event where
  | cs (v : Level)
  | dc (v : Level)
  | rst (v : Level)
  | tx (b : Byte)
  | wait (d : Nat)
  deriving DecidableEq, Repr

/-- The ghost of the panel image (10_state.md R33): undefined, or bytes in frame-buffer order. -/
inductive Shown where
  | undefined
  | image (bytes : List Byte)
  deriving DecidableEq, Repr, Inhabited

/-- What the last operation with a result returned (43_buffer_access.md R192, R195). The model's own (log entry 9). -/
inductive Result where
  | nothing
  | byte (b : Byte)
  | ident (n : Nat)
  deriving DecidableEq, Repr, Inhabited

/-- The machine's state. -/
structure State where
  /-- `CS`, chip-select, active low (10_state.md R21). -/
  cs     : Level
  /-- `DC`, mode-select, low for a command (10_state.md R22). -/
  dc     : Level
  /-- `RST`, panel reset, active low (10_state.md R23). -/
  rst    : Level
  /-- `TXB`, the byte on the serial channel (10_state.md R25). -/
  txb    : Byte
  /-- `LIFE` (10_state.md R26). -/
  life   : Life
  /-- `CFG` (10_state.md R27). -/
  cfg    : Cfg
  /-- `FB` (10_state.md R30): the bytes that differ from FB_INIT, addresses rising. -/
  fb     : List Host.Cell
  /-- `TRACE` (10_state.md R32), oldest event first. -/
  trace  : List Event
  /-- `SHOWN` (10_state.md R33). -/
  shown  : Shown
  /-- `BUSY` (10_state.md R34): seen true only inside a flush with CONCURRENT_FB_WRITE. -/
  busy   : Bool
  /-- `SP` (10_state.md R35): index of the next event of the operation in progress. -/
  sp     : Nat
  /-- The parameters, INIT_TABLE among them (00_scope.md R10, 10_state.md R31, R36). -/
  par    : Params
  /-- Model's own (log entry 7): descriptor bytes the HOST has asked for and the block has not taken. -/
  host   : List Byte
  /-- Model's own (log entry 8): frame groups waiting at the sequencer's port. -/
  seq    : List (List Symbol)
  /-- Model's own (log entry 9): the last result returned to the HOST. -/
  result : Result
  /-- Model's own (log entry 10): free draws taken so far. -/
  draws  : Nat
  deriving DecidableEq, Repr

/-- The reasons the machine stops with a fault: none. "The block raises no exception, trap, fault or error of any kind"
(60_exceptions.md R200). -/
inductive Fault where
  deriving DecidableEq, Repr

/-- The refusals (60_exceptions.md R203): verdicts at the model's boundary. No state changes and no event is emitted. -/
inductive Refusal where
  /-- An instruction without a meaning yet. Raised by exec's arms only. Safe. -/
  | notModelled (mnemonic : String)
  /-- A request while an operation is in progress (R203, R34, R241). Raised by every meaning except FB_WRITE with
  CONCURRENT_FB_WRITE. Unsafe where another agent can act during an operation (log entry 11). -/
  | busy
  /-- A reserved operation code (30_encoding.md R105). Raised by the fetch. Safe. -/
  | invalidOp
  /-- A descriptor shorter than its format (30_encoding.md R106). Raised by the fetch. Safe. -/
  | truncated
  /-- FB_WRITE or FB_READ with an address of 64800 or more (43_buffer_access.md R193). Safe. -/
  | badAddress
  /-- SEND_DATA, or a data frame of the sequencer, with no bytes (40_bus_transactions.md R125). Safe. -/
  | emptyPayload
  /-- A host-issued SEND_COMMAND or SEND_DATA with RAW_BUS_ACCESS false (30_encoding.md R108). Safe. -/
  | rawNotAdmitted
  /-- CONSTRUCT when a driver exists (41_reset_init.md R155). Safe. -/
  | alreadyConstructed
  /-- Any other operation while LIFE is Unpowered (41_reset_init.md R155). Safe. -/
  | notConstructed
  /-- A group at the sequencer's port that is no frame (30_encoding.md R91, R92; log entry 8). Raised by the fetch. Safe. -/
  | malformedFrame
  deriving DecidableEq, Repr

/-- DESIGN CHOICE, unsafe (log entry 2): what CFG holds before CONSTRUCT; the spec says unspecified (10_state.md R38). -/
def Cfg.atReset : Cfg where
  csId := 0
  rstId := 0
  dcId := 0
  sckId := 0
  mosiId := 0
  blId := 0
  busId := 0
  busHz := Config.busHzDefault
  cpol := 0
  cpha := 0

/-- Power-on, before CONSTRUCT (10_state.md R38). CS, DC, RST and TXB are DESIGN CHOICE, unsafe (log entry 1). -/
def State.reset : State where
  cs := 0
  dc := 0
  rst := 0
  txb := 0
  life := .unpowered
  cfg := Cfg.atReset
  fb := []
  trace := []
  shown := .undefined
  busy := false
  sp := 0
  par := Params.default
  host := []
  seq := []
  result := .nothing
  draws := 0

end Sys2Proof.Machine
end

