-- ==== Sys2Proof/Machine/Ops.lean ====
section
/-! DEFINITION. The named operations over memory and registers: the frame buffer, the micro-operations LineWrite, Tx and
Hold, and the primitives and helpers of the Bus Transaction Layer. The block takes no exception and has no return from one
(60_exceptions.md R207, R208), so there is no operation for either. -/

namespace Sys2Proof.Machine

/-! ## The frame buffer as sparse memory -/

/-- The first listed byte at an address. -/
def Mem.lookup : List Host.Cell → Nat → Option Byte
  | [], _ => none
  | (k, v) :: m, a => if k = a then some v else Mem.lookup m a

/-- The byte at an address; an unlisted one reads as `init`. -/
def Mem.read (init : Nat → Byte) (m : List Host.Cell) (a : Nat) : Byte :=
  (Mem.lookup m a).getD (init a)

/-- Put a byte where the rising order wants it, over the one already there. -/
def Mem.insert : List Host.Cell → Nat → Byte → List Host.Cell
  | [], a, b => [(a, b)]
  | (k, v) :: m, a, b =>
    if a < k then (a, b) :: (k, v) :: m
    else if a = k then (a, b) :: m
    else (k, v) :: Mem.insert m a b

/-- Remove an address. -/
def Mem.erase (m : List Host.Cell) (a : Nat) : List Host.Cell :=
  m.filter (fun c => c.1 != a)

/-- Write one byte and keep the canonical form. -/
def Mem.write (init : Nat → Byte) (m : List Host.Cell) (a : Nat) (b : Byte) : List Host.Cell :=
  if b = init a then Mem.erase m a else Mem.insert m a b

/-- The canonical form: addresses of the buffer, strictly rising, no entry equal to what an unlisted address reads as. -/
def Mem.wf (init : Nat → Byte) : List Host.Cell → Bool
  | [] => true
  | (k, v) :: m =>
    decide (k < Config.fbSize) && decide (v ≠ init k) && m.all (fun c => decide (k < c.1)) && Mem.wf init m

/-- FB_INIT at an address (10_state.md R30): what a byte nothing has written reads as. A list shorter than the buffer
reads as 0 beyond its end (log entry 3). -/
def Params.fbInitAt (p : Params) (a : Nat) : Byte := p.fbInit.getD a 0

/-- `FB[a]`. -/
def State.fbRead (s : State) (a : Nat) : Byte :=
  Mem.read (Params.fbInitAt s.par) s.fb a

/-- `FB[a] <- b`. -/
def State.fbPut (s : State) (a : Nat) (b : Byte) : State :=
  { s with fb := Mem.write (Params.fbInitAt s.par) s.fb a b }

/-- The frame buffer is in canonical form. -/
def State.fbWf (s : State) : Bool := Mem.wf (Params.fbInitAt s.par) s.fb

/-- `MemRead(a, n)` (00_scope.md section 7): `n` bytes in ascending address order. -/
def State.memRead (s : State) (a n : Nat) : List Byte :=
  (List.range n).map (fun i => s.fbRead (a + i))

/-- `MemWrite(a, n, vs)` (00_scope.md section 7): `FB[a+i] <- vs[i]`. -/
def State.memWrite (s : State) (a : Nat) : List Byte → State
  | [] => s
  | v :: vs => State.memWrite (s.fbPut a v) (a + 1) vs

/-- All of FB: `MemRead(0, FB_SIZE)`. -/
def State.fbBytes (s : State) : List Byte := s.memRead 0 Config.fbSize

/-! ## Hard-wired registers (10_state.md R24, R28) -/

/-- `XS`, read in any state. -/
def State.xs (_ : State) : Half := Config.xs
/-- `XE`, read in any state. -/
def State.xe (_ : State) : Half := Config.xe
/-- `YS`, read in any state. -/
def State.ys (_ : State) : Half := Config.ys
/-- `YE`, read in any state. -/
def State.ye (_ : State) : Half := Config.ye
/-- `WIDTH`, read in any state. -/
def State.width (_ : State) : Nat := Config.width
/-- `HEIGHT`, read in any state. -/
def State.height (_ : State) : Nat := Config.height
/-- `DEPTH`, read in any state. -/
def State.depth (_ : State) : Nat := Config.depth

/-- The register of a line. -/
def State.line (s : State) : Line → Level
  | .cs => s.cs
  | .dc => s.dc
  | .rst => s.rst

/-- The event of a line write. -/
def Line.event : Line → Level → Event
  | .cs, v => .cs v
  | .dc, v => .dc v
  | .rst, v => .rst v

/-! ## Micro-operations -/

/-- `emit(e)` (00_scope.md section 7). -/
def State.emit (s : State) (e : Event) : State := { s with trace := s.trace ++ [e] }

/-- `LineWrite(L, v)` (40_bus_transactions.md R120). -/
def State.lineWrite (s : State) (L : Line) (v : Level) : State :=
  match L with
  | .cs => State.emit { s with cs := v } (.cs v)
  | .dc => State.emit { s with dc := v } (.dc v)
  | .rst => State.emit { s with rst := v } (.rst v)

/-- `Tx(b)` (40_bus_transactions.md R121). -/
def State.tx (s : State) (b : Byte) : State := State.emit { s with txb := b } (.tx b)

/-- The duration of the next hold: at least its bound, otherwise free (40_bus_transactions.md R122; log entry 10). -/
def holdTime (bound draw : Nat) : Nat := bound + Config.holdExtra draw

/-- `Hold(T)` (40_bus_transactions.md R122). -/
def State.hold (s : State) (bound : Nat) : State :=
  State.emit { s with draws := s.draws + 1 } (.wait (holdTime bound s.draws))

/-! ## The Bus Transaction Layer -/

/-- `SEND_COMMAND(c)`: the five steps of 40_bus_transactions.md R124. -/
def State.sendCommand (s : State) (c : Byte) : State :=
  ((((s.lineWrite .cs high).lineWrite .dc low).lineWrite .cs low).tx c).lineWrite .cs high

/-- `Tx` for each byte of a list, in order. -/
def State.txAll (s : State) (bs : List Byte) : State := bs.foldl State.tx s

/-- `SEND_DATA(bs)`: the five steps of 40_bus_transactions.md R125. -/
def State.sendData (s : State) (bs : List Byte) : State :=
  ((((s.lineWrite .cs high).lineWrite .dc high).lineWrite .cs low).txAll bs).lineWrite .cs high

/-- `SendArgs(ds)` (40_bus_transactions.md R128). -/
def State.sendArgs (s : State) (ds : List Byte) : State :=
  if ds = [] then s
  else match s.par.argFraming with
    | .perEntry => s.sendData ds
    | .perByte => ds.foldl (fun t d => t.sendData [d]) s

/-- `SendCmdWithArgs(c, ds)` (40_bus_transactions.md R127). -/
def State.sendCmdWithArgs (s : State) (c : Byte) (ds : List Byte) : State :=
  (s.sendCommand c).sendArgs ds

/-! ## Admission (60_exceptions.md R203, R206) -/

/-- Every operation but CONSTRUCT and a concurrent FB_WRITE: refused while an operation is in progress, then refused
while no driver exists. -/
def State.gate (s : State) (k : Host.Outcome State Fault Refusal) : Host.Outcome State Fault Refusal :=
  if s.busy = true then .refused .busy
  else if s.life = .unpowered then .refused .notConstructed
  else k

end Sys2Proof.Machine
end

