-- ==== Sys2Proof/Machine/Operands.lean ====
section
/-! DEFINITION. Operand forms: the window payload, the command bytes as a state holds them, the address range of the
frame-buffer port, and WF_INIT of a state's table. -/

namespace Sys2Proof.Machine

/-- `win(s, e) = [hi8(s), lo8(s), hi8(e), lo8(e)]` (42_flush.md R171, 30_encoding.md R93). -/
def win (s e : Half) : List Byte := [hi8 s, lo8 s, hi8 e, lo8 e]

/-- The column payload `win(XS, XE)` (42_flush.md R172). -/
def State.columnWindow (s : State) : List Byte := win s.xs s.xe

/-- The row payload `win(YS, YE)` (42_flush.md R172). -/
def State.rowWindow (s : State) : List Byte := win s.ys s.ye

/-- The byte of a named command in this state's parameters (30_encoding.md R96, R97). -/
def State.cmdByte (s : State) (n : CmdName) : Byte := s.par.cmd.byteOf n

/-- The one addressing mode: the absolute address in the operand, in range or not (43_buffer_access.md R193). -/
def addressExists (a : Half) : Bool := decide (a.toNat < Config.fbSize)

/-- WF_INIT of this state's table. -/
def State.tableWf (s : State) : Bool := wfInit s.par.cmd s.par.gammaLen s.par.initTable

end Sys2Proof.Machine
end

