-- ==== Sys2Proof/Machine/Buffer.lean ====
section
/-! DEFINITION. Family 43, the frame-buffer access port and the backlight identity (43_buffer_access.md). -/

namespace Sys2Proof.Machine

/-- FB_WRITE a, b (R191): `MemWrite(a, 1, [b])`; refused out of range (R193). Admitted during a flush when
CONCURRENT_FB_WRITE is true (70_reset_and_hazards.md R241). -/
def execFbWrite (a : Half) (b : Byte) (s : State) : Host.Outcome State Fault Refusal :=
  if s.busy = true ∧ s.par.concurrentFbWrite = false then .refused .busy
  else if s.life = .unpowered then .refused .notConstructed
  else if addressExists a = false then .refused .badAddress
  else .next (s.memWrite a.toNat [b])

/-- FB_READ a (R192): returns `MemRead(a, 1)[0]`; refused out of range (R193). -/
def execFbRead (a : Half) (s : State) : Host.Outcome State Fault Refusal :=
  s.gate <|
    if addressExists a = false then .refused .badAddress
    else .next { s with result := .byte (s.fbRead a.toNat) }

/-- BL_ID (R195): returns `CFG.BL_ID`. -/
def execBlId (s : State) : Host.Outcome State Fault Refusal :=
  s.gate (.next { s with result := .ident s.cfg.blId })

end Sys2Proof.Machine
end

