-- ==== Sys2Proof/Machine/Events.lean ====
section
/-! DEFINITION. The event lists of 41_reset_init.md R158 and 42_flush.md R178 as functions, apart from the pseudocode the
meanings follow. -/

namespace Sys2Proof.Machine

/-- `ev_cmd(c)`. -/
def evCmd (c : Byte) : List Event := [.cs high, .dc low, .cs low, .tx c, .cs high]

/-- `ev_data(bs)`. -/
def evData (bs : List Byte) : List Event :=
  [.cs high, .dc high, .cs low] ++ bs.map Event.tx ++ [.cs high]

/-- `ev_args(ds)`. -/
def evArgs (f : ArgFraming) (ds : List Byte) : List Event :=
  if ds = [] then []
  else match f with
    | .perEntry => evData ds
    | .perByte => ds.flatMap (fun d => evData [d])

/-- `ev_entry(c, ds)`. -/
def evEntry (f : ArgFraming) (c : Byte) (ds : List Byte) : List Event := evCmd c ++ evArgs f ds

/-- `ev_reset` with its three durations. -/
def evReset (d1 d2 d3 : Nat) : List Event := [.rst high, .wait d1, .rst low, .wait d2, .rst high, .wait d3]

/-- The table phase of `ev_init`. -/
def evTable (f : ArgFraming) (t : InitTable) : List Event := t.flatMap (fun e => evEntry f e.1 e.2)

/-- `ev_init` with its three durations. -/
def evInit (f : ArgFraming) (t : InitTable) (d1 d2 d3 : Nat) : List Event := evReset d1 d2 d3 ++ evTable f t

/-- `ev_flush` for given contents of the frame buffer. -/
def evFlush (f : ArgFraming) (b : CmdBytes) (fb : List Byte) : List Event :=
  evEntry f b.caset (win Config.xs Config.xe)
    ++ evEntry f b.raset (win Config.ys Config.ye)
    ++ evCmd b.ramwr
    ++ evData fb

/-- The three hold durations a reset draws in a state (40_bus_transactions.md R122). -/
def State.resetEvents (s : State) : List Event :=
  evReset (holdTime Config.tHoldMin s.draws) (holdTime Config.tHoldMin (s.draws + 1))
    (holdTime Config.tHoldMin (s.draws + 2))

/-- `ev_init` as a state draws it. -/
def State.initEvents (s : State) : List Event := s.resetEvents ++ evTable s.par.argFraming s.par.initTable

/-- `ev_flush` of the frame buffer as it is now. -/
def State.flushEvents (s : State) : List Event := evFlush s.par.argFraming s.par.cmd s.fbBytes

end Sys2Proof.Machine
end

