-- ==== Sys2Proof/Machine/Wire.lean ====
section
/-! DEFINITION. The wire as an observer reads it: frames and bytes (40_bus_transactions.md R132), the waveform of a line
(R131), the 9-bit symbols (30_encoding.md R91), the commands of a trace (R111), and the discipline of R132. -/

namespace Sys2Proof.Machine

/-- A frame (30_encoding.md R90): the mode-select level when it opened (`none` if no `DC` event had been seen), and its
bytes. -/
structure Frame where
  dc    : Option Level
  bytes : List Byte
  deriving DecidableEq, Repr

/-- The variables of the pseudocode of `frames` (40_bus_transactions.md R132); its `cs` is assigned and never read. -/
structure FrameScan where
  out : List Frame
  dc  : Option Level
  cur : Option Frame
  deriving DecidableEq, Repr

/-- One event of `frames`. -/
def FrameScan.next (k : FrameScan) : Event → FrameScan
  | .cs v =>
    if v = low then
      match k.cur with
      | none => { k with cur := some ⟨k.dc, []⟩ }
      | some _ => k
    else
      match k.cur with
      | none => k
      | some f => { k with out := k.out ++ [f], cur := none }
  | .dc v => { k with dc := some v }
  | .tx b =>
    match k.cur with
    | none => k
    | some f => { k with cur := some ⟨f.dc, f.bytes ++ [b]⟩ }
  | .rst _ => k
  | .wait _ => k

/-- The scan of a whole trace. -/
def frameScan (t : List Event) : FrameScan := t.foldl FrameScan.next ⟨[], none, none⟩

/-- `frames(T)` (40_bus_transactions.md R132). -/
def frames (t : List Event) : List Frame := (frameScan t).out

/-- The byte of a `TX` event. -/
def Event.txByte : Event → Option Byte
  | .tx b => some b
  | _ => none

/-- `bytes(T)` (40_bus_transactions.md R132). -/
def txBytes (t : List Event) : List Byte := t.filterMap Event.txByte

/-- The level a line event writes to a line. -/
def Event.levelOn : Line → Event → Option Level
  | .cs, .cs v => some v
  | .dc, .dc v => some v
  | .rst, .rst v => some v
  | _, _ => none

/-- The levels written to a line, in order. -/
def lineWrites (L : Line) (t : List Event) : List Level := t.filterMap (Event.levelOn L)

/-- The levels with each redundant one removed, given the level before them if it is known (40_bus_transactions.md R131).
DESIGN CHOICE, unsafe (log entry 20): where it is not known (`none`), the spec says that the first write may or may not make
an edge, and here that write is always kept. -/
def dropRedundant : Option Level → List Level → List Level
  | _, [] => []
  | v0, v :: vs => if v0 = some v then dropRedundant v0 vs else v :: dropRedundant (some v) vs

/-- The waveform of a line (40_bus_transactions.md R131), given the level before the trace if it is known; for `none`, log
entry 20. -/
def waveform (L : Line) (before : Option Level) (t : List Event) : List Level :=
  dropRedundant before (lineWrites L t)

/-- The last level written to a line. -/
def lastLevel (L : Line) (t : List Event) : Option Level := (lineWrites L t).getLast?

/-- Chip-select assertions (40_bus_transactions.md R131): the number of `CS(0)` events. -/
def assertions (t : List Event) : Nat := t.countP (fun e => decide (e = .cs low))

/-- The mode-select level at each `TX` event, given the level before the trace. -/
def dcAtTx : Option Level → List Event → List (Option Level)
  | _, [] => []
  | _, .dc v :: t => dcAtTx (some v) t
  | v0, .tx _ :: t => v0 :: dcAtTx v0 t
  | v0, .cs _ :: t => dcAtTx v0 t
  | v0, .rst _ :: t => dcAtTx v0 t
  | v0, .wait _ :: t => dcAtTx v0 t

/-- The 9-bit symbols of a frame (30_encoding.md R91); none while the mode-select level is unknown. -/
def Frame.symbols (f : Frame) : List Symbol :=
  match f.dc with
  | none => []
  | some v => f.bytes.map (mkSymbol v)

/-- A frame of format WC or WD (30_encoding.md R91): one byte with `dc = 0`, or one or more with `dc = 1`. -/
def Frame.isWcOrWd (f : Frame) : Bool :=
  (decide (f.dc = some low) && decide (f.bytes.length = 1))
    || (decide (f.dc = some high) && decide (1 ≤ f.bytes.length))

/-- The panel's reading of frames (30_encoding.md R111): each command byte with the data of the frames after it, "data for
the most recent command". DESIGN CHOICE, unsafe (log entry 18): a data frame before any command frame, for which the spec
names no command, is left out of the reading, and so is a frame that is neither format WC nor WD. -/
def commandsOf : List Frame → List (Byte × List Byte)
  | [] => []
  | f :: fs =>
    match f.dc, f.bytes with
    | some v, [c] =>
      if v = low then
        (c, (fs.takeWhile (fun g => decide (g.dc = some high))).flatMap Frame.bytes) :: commandsOf fs
      else commandsOf fs
    | _, _ => commandsOf fs

/-- The names of the commands of a trace (30_encoding.md R111). -/
def commandNames (b : CmdBytes) (t : List Event) : List (Option CmdName) :=
  (commandsOf (frames t)).map (fun c => b.nameOf c.1)

/-- One event under the discipline of 40_bus_transactions.md R132, given the level of `CS` if known: `DC` only while
`CS = 1`, `TX` only while `CS = 0`, `RST` and `WAIT` never inside a transaction, and no hold shorter than `T_HOLD_MIN`
(41_reset_init.md R141). Answers the level afterwards, or `none` on a violation. With the level not known, `DC` and `TX` are
violations and `RST` and `WAIT` are not: DESIGN CHOICE, safe (log entry 20). -/
def disciplineStep (cs : Option Level) : Event → Option (Option Level)
  | .cs v => some (some v)
  | .dc _ => if cs = some high then some cs else none
  | .tx _ => if cs = some low then some cs else none
  | .rst _ => if cs = some low then none else some cs
  | .wait d => if cs = some low ∨ d < Config.tHoldMin then none else some cs

/-- The discipline over a trace. -/
def discipline : Option Level → List Event → Option (Option Level)
  | cs, [] => some cs
  | cs, e :: t =>
    match disciplineStep cs e with
    | none => none
    | some cs' => discipline cs' t

/-- The trace keeps the discipline and ends with no transaction open. -/
def traceClean (t : List Event) : Bool :=
  match discipline none t with
  | none => false
  | some v => decide (v ≠ some low)

end Sys2Proof.Machine
end

