-- ==== Sys2Proof/Machine/Flush.lean ====
section
/-! DEFINITION. Family 42, the flush engine (42_flush.md), with the event-by-event flush that CONCURRENT_FB_WRITE = true
asks for (70_reset_and_hazards.md R241, 10_state.md R34, R35). -/

namespace Sys2Proof.Machine

/-- What a flush leaves in SHOWN, given the bytes it sent (R176). -/
def State.promise (s : State) (bytes : List Byte) : Shown :=
  if s.life = .ready then .image bytes else .undefined

/-- `FLUSH` as one atomic transition, the pseudocode of R174. -/
def State.flushNow (s : State) : State :=
  let t := (((s.sendCmdWithArgs (s.cmdByte .caset) s.columnWindow).sendCmdWithArgs (s.cmdByte .raset)
    s.rowWindow).sendCommand (s.cmdByte .ramwr)).sendData s.fbBytes
  { t with shown := s.promise s.fbBytes }

/-- `FLUSH` begins (10_state.md R34, R35): `BUSY = 1`, `SP = 0`. -/
def State.flushStart (s : State) : State := { s with busy := true, sp := 0 }

/-- The effect of one event of an event list: the micro-operation that emits it. -/
def State.play (s : State) : Event → State
  | .cs v => s.lineWrite .cs v
  | .dc v => s.lineWrite .dc v
  | .rst v => s.lineWrite .rst v
  | .tx b => s.tx b
  | .wait d => s.emit (.wait d)

/-- The last `n` bytes sent. -/
def lastSent (n : Nat) (t : List Event) : List Byte :=
  (txBytes t).drop ((txBytes t).length - n)

/-- `FLUSH` ends: `BUSY = 0`, `SP = 0` (41_reset_init.md R156), and SHOWN is the bulk frame as it was sent
(log entry 12). -/
def State.flushEnd (s : State) : State :=
  { s with busy := false, sp := 0, shown := s.promise (lastSent Config.fbSize s.trace) }

/-- One event of a flush in progress: the event at index SP of the event list of the frame buffer as it is now, so that
byte `i` of the bulk frame is read when its `TX` is emitted (70_reset_and_hazards.md R241). With SP beyond the list, which no
run reaches, it only ends the flush: DESIGN CHOICE, safe (log entry 11). -/
def State.tick (s : State) : State :=
  match s.flushEvents[s.sp]? with
  | none => s.flushEnd
  | some e =>
    if s.sp + 1 = s.flushEvents.length then State.flushEnd { s.play e with sp := s.sp + 1 }
    else { s.play e with sp := s.sp + 1 }

/-- What FLUSH does once admitted: the whole operation, or its start where frame-buffer writes may interleave. -/
def State.flushOp (s : State) : State :=
  if s.par.concurrentFbWrite = true then s.flushStart else s.flushNow

/-- FLUSH (R174). -/
def execFlush (s : State) : Host.Outcome State Fault Refusal := s.gate (.next s.flushOp)

/-- SHOW, the alias (R177). -/
def execShowFrame (s : State) : Host.Outcome State Fault Refusal := s.gate (.next s.flushOp)

end Sys2Proof.Machine
end

