-- ==== Sys2Proof/Machine/Lifecycle.lean ====
section
/-! DEFINITION. Family 41, panel reset, initialization and construction (41_reset_init.md). -/

namespace Sys2Proof.Machine

/-- `RESET`, the pseudocode of R142. -/
def State.resetPanel (s : State) : State :=
  ((((((({ s with life := .resetting, shown := .undefined } : State).lineWrite .rst high).hold Config.tHoldMin).lineWrite
    .rst low).hold Config.tHoldMin).lineWrite .rst high).hold Config.tHoldMin)

/-- The table phase of `INITIALIZE`: each entry in table order (R145, R150). -/
def State.sendTable (s : State) (t : InitTable) : State :=
  t.foldl (fun u e => u.sendCmdWithArgs e.1 e.2) s

/-- `INITIALIZE`, the pseudocode of R150. -/
def State.initializePanel (s : State) : State :=
  let r := { s.resetPanel with life := Life.initializing }
  { r.sendTable s.par.initTable with life := .ready, shown := .undefined }

/-- `CONSTRUCT`, the pseudocode of R155 after its check: `CFG <- cfg`, `FB <- FB_INIT`, `TRACE <- []`, `INITIALIZE`. -/
def State.constructDriver (s : State) : State :=
  ({ s with cfg := s.par.construction, fb := [], trace := [] } : State).initializePanel

/-- RESET (R142). -/
def execReset (s : State) : Host.Outcome State Fault Refusal := s.gate (.next s.resetPanel)

/-- INITIALIZE (R150). -/
def execInitPanel (s : State) : Host.Outcome State Fault Refusal := s.gate (.next s.initializePanel)

/-- CONSTRUCT (R155): refused when a driver exists. -/
def execConstruct (s : State) : Host.Outcome State Fault Refusal :=
  if s.busy = true then .refused .busy
  else if s.life ≠ .unpowered then .refused .alreadyConstructed
  else .next s.constructDriver

end Sys2Proof.Machine
end

