-- ==== Sys2Proof/Machine/Transactor.lean ====
section
/-! DEFINITION. Family 40, the serial transactor (40_bus_transactions.md): SEND_COMMAND and SEND_DATA as the HOST issues
them, and the wire frames, panel commands and table entries as the sequencer sends them. -/

namespace Sys2Proof.Machine

/-- What a host-issued primitive adds (30_encoding.md R108): `LIFE <- Initializing`, `SHOWN <- undefined`. -/
def State.rawUse (s : State) : State := { s with life := .initializing, shown := .undefined }

/-- SEND_COMMAND c (R124, R108). -/
def execSendCommand (c : Byte) (s : State) : Host.Outcome State Fault Refusal :=
  s.gate <|
    if s.par.rawBusAccess = false then .refused .rawNotAdmitted
    else .next (s.sendCommand c).rawUse

/-- SEND_DATA bs (R125, R108); no bytes is not admitted (30_encoding.md R106). -/
def execSendData (bs : List Byte) (s : State) : Host.Outcome State Fault Refusal :=
  s.gate <|
    if s.par.rawBusAccess = false then .refused .rawNotAdmitted
    else if bs = [] then .refused .emptyPayload
    else .next (s.sendData bs).rawUse

/-- WC, a command frame of the sequencer (R124; R126: LIFE and SHOWN untouched). -/
def execWireCommand (c : Byte) (s : State) : Host.Outcome State Fault Refusal :=
  s.gate (.next (s.sendCommand c))

/-- WD, a data frame of the sequencer (R125; R126). -/
def execWireData (bs : List Byte) (s : State) : Host.Outcome State Fault Refusal :=
  s.gate (if bs = [] then .refused .emptyPayload else .next (s.sendData bs))

/-- INIT_ENTRY: one entry of the table (R127). -/
def execInitEntry (c : Byte) (ds : List Byte) (s : State) : Host.Outcome State Fault Refusal :=
  s.gate (.next (s.sendCmdWithArgs c ds))

/-- CMD_CASET: `SendCmdWithArgs(CMD_CASET, win(XS, XE))` (42_flush.md R172, step 1). -/
def execCmdCaset (s : State) : Host.Outcome State Fault Refusal :=
  s.gate (.next (s.sendCmdWithArgs (s.cmdByte .caset) s.columnWindow))

/-- CMD_RASET: `SendCmdWithArgs(CMD_RASET, win(YS, YE))` (42_flush.md R172, step 2). -/
def execCmdRaset (s : State) : Host.Outcome State Fault Refusal :=
  s.gate (.next (s.sendCmdWithArgs (s.cmdByte .raset) s.rowWindow))

/-- CMD_RAMWR: `SEND_COMMAND(CMD_RAMWR)` (42_flush.md R173, step 3). -/
def execCmdRamwr (s : State) : Host.Outcome State Fault Refusal :=
  s.gate (.next (s.sendCommand (s.cmdByte .ramwr)))

/-- CMD_MADCTL with its data bytes (41_reset_init.md R147, R127). -/
def execCmdMadctl (ds : List Byte) (s : State) : Host.Outcome State Fault Refusal :=
  s.gate (.next (s.sendCmdWithArgs (s.cmdByte .madctl) ds))

/-- CMD_COLMOD with its data bytes (41_reset_init.md R147, R127). -/
def execCmdColmod (ds : List Byte) (s : State) : Host.Outcome State Fault Refusal :=
  s.gate (.next (s.sendCmdWithArgs (s.cmdByte .colmod) ds))

/-- CMD_PORCH with its data bytes (41_reset_init.md R147, R127). -/
def execCmdPorch (ds : List Byte) (s : State) : Host.Outcome State Fault Refusal :=
  s.gate (.next (s.sendCmdWithArgs (s.cmdByte .porch) ds))

/-- CMD_GAMMA_POS with its data bytes (41_reset_init.md R148, R127). -/
def execCmdGammaPos (ds : List Byte) (s : State) : Host.Outcome State Fault Refusal :=
  s.gate (.next (s.sendCmdWithArgs (s.cmdByte .gammaPos) ds))

/-- CMD_GAMMA_NEG with its data bytes (41_reset_init.md R148, R127). -/
def execCmdGammaNeg (ds : List Byte) (s : State) : Host.Outcome State Fault Refusal :=
  s.gate (.next (s.sendCmdWithArgs (s.cmdByte .gammaNeg) ds))

/-- CMD_PIXADDR_MODE, bare (41_reset_init.md R149). -/
def execCmdPixaddrMode (s : State) : Host.Outcome State Fault Refusal :=
  s.gate (.next (s.sendCommand (s.cmdByte .pixaddrMode)))

/-- CMD_SLEEP_OUT, bare (41_reset_init.md R149). -/
def execCmdSleepOut (s : State) : Host.Outcome State Fault Refusal :=
  s.gate (.next (s.sendCommand (s.cmdByte .sleepOut)))

/-- CMD_DISPLAY_ON, bare (41_reset_init.md R149). -/
def execCmdDisplayOn (s : State) : Host.Outcome State Fault Refusal :=
  s.gate (.next (s.sendCommand (s.cmdByte .displayOn)))

end Sys2Proof.Machine
end

