-- ==== Sys2Proof/Machine/Dispatch.lean ====
section
/-! DEFINITION. The dispatch: one arm for each constructor of Instr, each a direct call of its meaning. -/

namespace Sys2Proof.Machine

def exec (i : Instr) (s : State) : Host.Outcome State Fault Refusal :=
  match i with
  | .construct => Sys2Proof.Machine.execConstruct s
  | .reset => Sys2Proof.Machine.execReset s
  | .initPanel => Sys2Proof.Machine.execInitPanel s
  | .flush => Sys2Proof.Machine.execFlush s
  | .showFrame => Sys2Proof.Machine.execShowFrame s
  | .fbWrite a b => Sys2Proof.Machine.execFbWrite a b s
  | .fbRead a => Sys2Proof.Machine.execFbRead a s
  | .blId => Sys2Proof.Machine.execBlId s
  | .sendCommand c => Sys2Proof.Machine.execSendCommand c s
  | .sendData bs => Sys2Proof.Machine.execSendData bs s
  | .wireCommand c => Sys2Proof.Machine.execWireCommand c s
  | .wireData bs => Sys2Proof.Machine.execWireData bs s
  | .cmdCaset => Sys2Proof.Machine.execCmdCaset s
  | .cmdRaset => Sys2Proof.Machine.execCmdRaset s
  | .cmdRamwr => Sys2Proof.Machine.execCmdRamwr s
  | .cmdMadctl ds => Sys2Proof.Machine.execCmdMadctl ds s
  | .cmdColmod ds => Sys2Proof.Machine.execCmdColmod ds s
  | .cmdPorch ds => Sys2Proof.Machine.execCmdPorch ds s
  | .cmdGammaPos ds => Sys2Proof.Machine.execCmdGammaPos ds s
  | .cmdGammaNeg ds => Sys2Proof.Machine.execCmdGammaNeg ds s
  | .cmdPixaddrMode => Sys2Proof.Machine.execCmdPixaddrMode s
  | .cmdSleepOut => Sys2Proof.Machine.execCmdSleepOut s
  | .cmdDisplayOn => Sys2Proof.Machine.execCmdDisplayOn s
  | .initEntry c ds => Sys2Proof.Machine.execInitEntry c ds s

end Sys2Proof.Machine
end

