-- ==== Sys2Proof/Machine/Fetch.lean ====
section
/-! DEFINITION. What the machine does next: which port it takes the next instruction from, and, during a flush with
CONCURRENT_FB_WRITE, who moves. Also how a table row's word is placed where the next step takes it. -/

namespace Sys2Proof.Machine

/-- The next move. -/
inductive Move where
  /-- No request and nothing in progress. -/
  | idle
  /-- One event of the flush in progress, from this state. -/
  | event (s : State)
  /-- Run this instruction from this state, its words consumed. -/
  | run (i : Instr) (s : State)
  /-- The words are no instruction. -/
  | refuse (r : Refusal)
  deriving DecidableEq, Repr

/-- A flush is in progress and FB may be written meanwhile (70_reset_and_hazards.md R241): if the next request is an
FB_WRITE, a free value says whether it or the next event comes first; any other request waits (10_state.md R34). -/
def State.moveInFlush (s : State) : Move :=
  match decodeHost s.host with
  | .ok (.fbWrite a b) rest =>
    if Config.writerMoves s.draws = true then .run (.fbWrite a b) { s with host := rest, draws := s.draws + 1 }
    else .event { s with draws := s.draws + 1 }
  | _ => .event s

/-- Nothing in progress: the sequencer's port first, then the HOST's next descriptor (30_encoding.md R106, R107). -/
def State.moveIdle (s : State) : Move :=
  match s.seq with
  | g :: gs =>
    match decodeFrame s.par.cmd g with
    | some i => .run i { s with seq := gs }
    | none => .refuse .malformedFrame
  | [] =>
    if s.host = [] then .idle
    else match decodeHost s.host with
      | .ok i rest => .run i { s with host := rest }
      | .invalidOp => .refuse .invalidOp
      | .truncated => .refuse .truncated

/-- The next move. -/
def State.nextMove (s : State) : Move :=
  if s.busy = true then
    if s.par.concurrentFbWrite = true then s.moveInFlush else .event s
  else s.moveIdle

/-- Is this one of the two host-issued primitives (30_encoding.md R108)? -/
def isRawPrimitive : Option Instr → Bool
  | some (.sendCommand _) => true
  | some (.sendData _) => true
  | _ => false

/-- The gate an instruction needs open to be taken as the next one (41_reset_init.md R155, 30_encoding.md R108): a driver
exists, for every operation but CONSTRUCT, and raw bus access, for the two host-issued primitives (log entry 14). -/
def State.openGate (s : State) (i : Option Instr) : State :=
  { s with
    life := if s.life = .unpowered ∧ i ≠ some .construct then .ready else s.life
    cfg := if s.life = .unpowered ∧ i ≠ some .construct then s.par.construction else s.cfg
    par := { s.par with rawBusAccess := s.par.rawBusAccess || isRawPrimitive i } }

/-- Put words at the head of their port, with no operation in progress and nothing ahead of them. -/
def State.place (s : State) : Code → State
  | .descriptor bs => { s with host := bs ++ s.host, seq := [], busy := false, sp := 0 }
  | .frame ss => { s with seq := ss :: s.seq, busy := false, sp := 0 }

/-- A table row's word placed where the next step takes it. -/
def State.placeTableWord (s : State) (nbits w : Nat) : State :=
  (s.openGate (decodeTableWord nbits w)).place (tableCode nbits w)

end Sys2Proof.Machine
end

