-- ==== Sys2Proof/Machine/Step.lean ====
section
/-! DEFINITION. One step of the machine, and the host's entry withFetchWord. -/

namespace Sys2Proof.Machine

/-- One step: nothing when idle (log entry 13), one event of a flush in progress, or one whole operation
(00_scope.md R13). -/
def step (s : State) : Host.Outcome State Fault Refusal :=
  match s.nextMove with
  | .idle => .next s
  | .event t => .next t.tick
  | .run i t => exec i t
  | .refuse r => .refused r

/-- `s` with the instruction of a table row's word placed where `step` takes its next one (log entry 14). -/
def State.withFetchWord (s : State) (nbits w : Nat) : State := s.placeTableWord nbits w

end Sys2Proof.Machine
end

