-- ==== Sys2Proof/Machine/Assembly.lean ====
section
/-! DEFINITION. The text of an operation (30_encoding.md R109): mnemonic in capitals, operands separated by commas, a byte
list in square brackets. Numbers are decimal, which 00_scope.md section 6 allows. No semantic content. -/

namespace Sys2Proof.Machine

/-- A number as text. -/
def numText {w : Nat} (v : BitVec w) : String := toString v.toNat

/-- A byte list as text. -/
def bytesText (bs : List Byte) : String := "[" ++ String.intercalate ", " (bs.map numText) ++ "]"

/-- The mnemonic of spec/opcode_table.json. -/
def mnemonicOf : Instr → String
  | .construct => "CONSTRUCT"
  | .reset => "RESET"
  | .initPanel => "INITIALIZE"
  | .flush => "FLUSH"
  | .showFrame => "SHOW"
  | .fbWrite _ _ => "FB_WRITE"
  | .fbRead _ => "FB_READ"
  | .blId => "BL_ID"
  | .sendCommand _ => "SEND_COMMAND"
  | .sendData _ => "SEND_DATA"
  | .wireCommand _ => "WC__command_frame"
  | .wireData _ => "WD__data_frame"
  | .cmdCaset => "CMD_CASET"
  | .cmdRaset => "CMD_RASET"
  | .cmdRamwr => "CMD_RAMWR"
  | .cmdMadctl _ => "CMD_MADCTL"
  | .cmdColmod _ => "CMD_COLMOD"
  | .cmdPorch _ => "CMD_PORCH"
  | .cmdGammaPos _ => "CMD_GAMMA_POS"
  | .cmdGammaNeg _ => "CMD_GAMMA_NEG"
  | .cmdPixaddrMode => "CMD_PIXADDR_MODE"
  | .cmdSleepOut => "CMD_SLEEP_OUT"
  | .cmdDisplayOn => "CMD_DISPLAY_ON"
  | .initEntry _ _ => "INIT_ENTRY"

/-- The operands as text. -/
def operandText : Instr → List String
  | .fbWrite a b => [numText a, numText b]
  | .fbRead a => [numText a]
  | .sendCommand c => [numText c]
  | .sendData bs => [bytesText bs]
  | .wireCommand c => [numText c]
  | .wireData bs => [bytesText bs]
  | .cmdMadctl ds => [bytesText ds]
  | .cmdColmod ds => [bytesText ds]
  | .cmdPorch ds => [bytesText ds]
  | .cmdGammaPos ds => [bytesText ds]
  | .cmdGammaNeg ds => [bytesText ds]
  | .initEntry c ds => [numText c, bytesText ds]
  | _ => []

/-- One line of a program. -/
def lineText (i : Instr) : String :=
  match operandText i with
  | [] => mnemonicOf i
  | ops => mnemonicOf i ++ " " ++ String.intercalate ", " ops

end Sys2Proof.Machine
end

