-- ==== Sys2Proof/Machine/Flags.lean ====
section
/-! DEFINITION. The block has no status flags, condition codes or predicates (10_state.md R29): no operation writes or
reads one. The only Booleans the spec lets it compute are the diagnostics of 60_exceptions.md R204, which no rule reads. -/

namespace Sys2Proof.Machine

/-- `WIDTH > 0` (60_exceptions.md R204). -/
def State.diagWidth (s : State) : Bool := decide (0 < s.width)

/-- `HEIGHT > 0` (60_exceptions.md R204). -/
def State.diagHeight (s : State) : Bool := decide (0 < s.height)

/-- `BUS_HZ > 0` (60_exceptions.md R204). It never stops CONSTRUCT and never refuses an operation. -/
def State.diagBusHz (s : State) : Bool := decide (0 < s.cfg.busHz)

end Sys2Proof.Machine
end

