-- ==== Sys2Proof/Machine/Pixel.lean ====
section
/-! DEFINITION. The pixel view of the frame buffer (43_buffer_access.md R196, R197; 20_memory.md R65) and the
pseudo-operations (30_encoding.md R110). No operation of the block uses it; it stands for the drawing collaborator. -/

namespace Sys2Proof.Machine

/-- Pixel index of column `x`, row `y` (R196). PRESUMED by the spec (93_implementation_defined.md G8; log entry 6). -/
def pixelIndex (x y : Nat) : Nat := y * Config.width + x

/-- A colour packed as RGB565 (R197). PRESUMED by the spec (93_implementation_defined.md G7; log entry 6). -/
def packRgb565 (r : BitVec 5) (g : BitVec 6) (b : BitVec 5) : Half := r ++ g ++ b

/-- The two bytes of a pixel at addresses `2k` and `2k + 1` (20_memory.md R65). -/
def pixelBytes : PixelByteOrder → Half → List Byte
  | .big, p => [hi8 p, lo8 p]
  | .little, p => [lo8 p, hi8 p]

/-- The stride in bytes (10_state.md R28). -/
def stride : Nat := 2 * Config.width

/-- The pseudo-operations of R110. -/
inductive Pseudo where
  | showOp
  | pixelWrite (k : Nat) (p : Half)
  | pixelWriteXy (x y : Nat) (p : Half)
  | fill (p : Half)
  deriving DecidableEq, Repr

/-- Operand ranges of R110. -/
def Pseudo.wellFormed : Pseudo → Bool
  | .showOp => true
  | .pixelWrite k _ => decide (k < Config.pixels)
  | .pixelWriteXy x y _ => decide (x < Config.width) && decide (y < Config.height)
  | .fill _ => true

/-- `PIXEL_WRITE k, p`: two byte writes (30_encoding.md R110). DESIGN CHOICE, unsafe (log entry 22): the spec gives `k` as 0 to
32399 only; for a larger one the two addresses are taken modulo 2^16, so one of 32768 or more writes another pixel. -/
def pixelWriteOps (o : PixelByteOrder) (k : Nat) (p : Half) : List Instr :=
  (pixelBytes o p).zipIdx.map (fun c => Instr.fbWrite (BitVec.ofNat 16 (2 * k + c.2)) c.1)

/-- The expansion of a pseudo-operation (R110). Operands outside `Pseudo.wellFormed`, of which the spec says nothing, are
expanded too: DESIGN CHOICE, unsafe (log entry 22). -/
def Pseudo.expand (o : PixelByteOrder) : Pseudo → List Instr
  | .showOp => [.flush]
  | .pixelWrite k p => pixelWriteOps o k p
  | .pixelWriteXy x y p => pixelWriteOps o (pixelIndex x y) p
  | .fill p => (List.range Config.pixels).flatMap (fun k => pixelWriteOps o k p)

end Sys2Proof.Machine
end

