-- ==== Sys2Proof/Safety.lean ====
section
/-! DEFINITION. What counts as a safe run, and the invariants the claims use. -/

namespace Sys2Proof.Machine

/-- A run is over (70_reset_and_hazards.md R233): nothing is requested and no operation is in progress. -/
def State.finished (s : State) : Bool := decide (s.host = []) && decide (s.seq = []) && !s.busy

/-- A step that is admitted: the block has no fault, so a safe step is one that is not refused. -/
def Admitted (o : Host.Outcome State Fault Refusal) : Prop := ∃ t, o = .next t

/-- A driver exists and no operation is in progress: every operation but CONSTRUCT is admitted
(70_reset_and_hazards.md R232). -/
def State.constructedIdle (s : State) : Bool := decide (s.life ≠ .unpowered) && !s.busy

/-- The panel image is promised only while the last thing that programmed the panel was a complete INITIALIZE
(10_state.md R26, R33). -/
def State.shownJustified (s : State) : Prop := s.shown ≠ .undefined → s.life = .ready

/-- A line register holds the last level the trace wrote to it. -/
def State.lineAgrees (s : State) (L : Line) : Prop := ∀ v, lastLevel L s.trace = some v → s.line L = v

/-- The transmit register holds the last byte the trace sent. -/
def State.txbAgrees (s : State) : Prop := ∀ b, (txBytes s.trace).getLast? = some b → s.txb = b

/-- A trace between operations: it keeps the discipline of 40_bus_transactions.md R132, every frame is of format WC or WD
(30_encoding.md R91), and no transaction is open. -/
structure QuietTrace (t : List Event) : Prop where
  clean  : traceClean t = true
  formed : (frames t).all Frame.isWcOrWd = true
  closed : (frameScan t).cur = none

/-- The wire in any state: between operations the trace is quiet; inside a flush, which is seen only with
CONCURRENT_FB_WRITE (10_state.md R34, R35), it is a quiet trace and then the first SP events of a flush of some buffer
contents (42_flush.md R178); and the registers agree with the trace. -/
structure State.WireInv (s : State) : Prop where
  idle    : s.busy = false → s.sp = 0 ∧ QuietTrace s.trace
  inFlush : s.busy = true → s.par.concurrentFbWrite = true ∧ ∃ (t : List Event) (fb : List Byte), QuietTrace t ∧
    fb.length = Config.fbSize ∧ s.sp < (evFlush s.par.argFraming s.par.cmd fb).length ∧
    s.trace = t ++ (evFlush s.par.argFraming s.par.cmd fb).take s.sp
  lines   : ∀ L, s.lineAgrees L
  byte    : s.txbAgrees

/-- While a driver exists its construction parameters are the ones CONSTRUCT was given (10_state.md R27). -/
def State.cfgFixed (s : State) : Prop := s.life ≠ .unpowered → s.cfg = s.par.construction

/-- A state after bus activity: `CS`, `DC`, `TXB` and the events appended; everything else as before
(10_state.md R39, the column of the primitives). -/
def State.onBus (s : State) (cs dc : Level) (txb : Byte) (es : List Event) : State :=
  { s with cs := cs, dc := dc, txb := txb, trace := s.trace ++ es }

/-- The mode-select level a command and its data leave (40_bus_transactions.md R129). -/
def dcAfter (ds : List Byte) : Level := if ds = [] then low else high

/-- A state after `SendCmdWithArgs(c, ds)` (40_bus_transactions.md R127, R158). -/
def State.afterEntry (s : State) (c : Byte) (ds : List Byte) : State :=
  s.onBus high (dcAfter ds) (ds.getLastD c) (evEntry s.par.argFraming c ds)

/-- Several instructions, one after the other; stops at the first that is not admitted. -/
def runAll : List Instr → State → Host.Outcome State Fault Refusal
  | [], s => .next s
  | i :: is, s =>
    match exec i s with
    | .next t => runAll is t
    | .fault r => .fault r
    | .refused r => .refused r

/-- A flush in progress with frame-buffer writes between its events (70_reset_and_hazards.md R241): `none` is the next
event, `some (a, b)` a write. The states it goes through, oldest first. -/
def flushRun : List (Option (Nat × Byte)) → State → List State
  | [], s => [s]
  | none :: m, s => s :: flushRun m s.tick
  | some (a, b) :: m, s => s :: flushRun m (s.fbPut a b)

/-- The index of the bulk frame's first `TX` among the events of a flush (42_flush.md R179: two windows of 13 or 25
events, the command of 5, and the three line events that open the frame). -/
def bulkStart : ArgFraming → Nat
  | .perEntry => 34
  | .perByte => 58

/-- An event without its drawn duration (41_reset_init.md R152: equal "except for the three drawn `WAIT` durations"). -/
def Event.forgetDuration : Event → Event
  | .wait _ => .wait 0
  | e => e

/-- The instructions that write the reset line (10_state.md R39). -/
def writesRst : Instr → Bool
  | .construct => true
  | .reset => true
  | .initPanel => true
  | _ => false

/-- The instructions that write the frame buffer (10_state.md R39). -/
def writesFb : Instr → Bool
  | .construct => true
  | .fbWrite _ _ => true
  | _ => false

/-- The instructions that touch neither the bus nor the trace (10_state.md R39). -/
def isQuiet : Instr → Bool
  | .fbWrite _ _ => true
  | .fbRead _ => true
  | .blId => true
  | _ => false

/-- The instructions that write SHOWN (10_state.md R33). -/
def writesShown : Instr → Bool
  | .construct => true
  | .reset => true
  | .initPanel => true
  | .flush => true
  | .showFrame => true
  | .sendCommand _ => true
  | .sendData _ => true
  | _ => false

/-- The instructions that return a result (30_encoding.md R100). -/
def hasResult : Instr → Bool
  | .fbRead _ => true
  | .blId => true
  | _ => false

/-- FLUSH under either name (42_flush.md R177). -/
def isFlush : Instr → Bool
  | .flush => true
  | .showFrame => true
  | _ => false

/-- The host-issued primitives (30_encoding.md R108). -/
def isRaw : Instr → Bool
  | .sendCommand _ => true
  | .sendData _ => true
  | _ => false

/-- Is this an FB_WRITE, the one request admitted inside a flush (70_reset_and_hazards.md R241)? -/
def isFbWrite : Instr → Bool
  | .fbWrite _ _ => true
  | _ => false

/-- The frame-buffer address an instruction names, if it does (43_buffer_access.md R191, R192). -/
def fbAddress : Instr → Option Half
  | .fbWrite a _ => some a
  | .fbRead a => some a
  | _ => none

/-- A data transaction with no bytes (40_bus_transactions.md R125). -/
def isEmptyData : Instr → Bool
  | .sendData bs => decide (bs = [])
  | .wireData bs => decide (bs = [])
  | _ => false

/-- The refusals of 60_exceptions.md R203 whose condition holds of a decoded request, in the order of R206. The two verdicts
on words, `invalid_op` and `truncated`, are the fetch's. -/
def refusalsOf (i : Instr) (s : State) : List Refusal :=
  (if s.busy = true ∧ (isFbWrite i = false ∨ s.par.concurrentFbWrite = false) then [.busy] else [])
    ++ (if s.life = .unpowered ∧ i ≠ .construct then [.notConstructed] else [])
    ++ (if s.life ≠ .unpowered ∧ i = .construct then [.alreadyConstructed] else [])
    ++ (if isRaw i = true ∧ s.par.rawBusAccess = false then [.rawNotAdmitted] else [])
    ++ (if (fbAddress i).any (fun a => decide (64800 ≤ a.toNat)) = true then [.badAddress] else [])
    ++ (if isEmptyData i = true then [.emptyPayload] else [])

/-- The value LIFE has after an instruction that was admitted (41_reset_init.md R156). -/
def lifeAfter (i : Instr) (l : Life) : Life :=
  match i with
  | .construct => .ready
  | .reset => .resetting
  | .initPanel => .ready
  | .sendCommand _ => .initializing
  | .sendData _ => .initializing
  | _ => l

end Sys2Proof.Machine
end

