-- ==== Sys2Proof/Certificates/Slice0/Obligations.lean ====
section
/-! DEFINITION. The statements for the provers, each with the rules of spec/ it formalises. -/

open Sys2Proof Sys2Proof.Machine

/-! ## Power-on and hard-wired values -/

/-- 10_state.md R38, the power-on values the spec gives (the levels of the lines, TXB and CFG are the model's choice, log
entries 1 and 2, and are not stated), and the defaults of 00_scope.md R10. -/
def Obligations.PowerOnStateIsUnpoweredAndSilent : Prop :=
  State.reset.life = .unpowered ∧ State.reset.trace = [] ∧ State.reset.shown = .undefined ∧
    State.reset.busy = false ∧ State.reset.sp = 0 ∧
    State.reset.par.rawBusAccess = false ∧ State.reset.par.concurrentFbWrite = false ∧
    State.reset.par.gammaLen = 13 ∧ State.reset.par.construction.busHz = 10000000

/-- 10_state.md R24: the four window constants, their wire bytes in every state, and their agreement with the geometry. -/
def Obligations.WindowConstantsAreHardwired : Prop :=
  ∀ s : State,
    s.xs = 0x0028 ∧ s.xe = 0x0117 ∧ s.ys = 0x0035 ∧ s.ye = 0x00BB ∧
      s.columnWindow = [0x00, 0x28, 0x01, 0x17] ∧ s.rowWindow = [0x00, 0x35, 0x00, 0xBB] ∧
      s.xe.toNat - s.xs.toNat + 1 = s.width ∧ s.ye.toNat - s.ys.toNat + 1 = s.height ∧
      s.width = 240 ∧ s.height = 135 ∧ s.depth = 16 ∧
      Config.pixels = Config.width * Config.height ∧ Config.fbSize = Config.width * Config.height * 2

/-- 42_flush.md R171 (and the split of 43_buffer_access.md R198): the payload of a window command, its two constant
values, and that the split into bytes is exact. -/
def Obligations.WindowPayloadSplitsExactly : Prop :=
  (∀ v e : Half, win v e = [hi8 v, lo8 v, hi8 e, lo8 e] ∧ (hi8 v).toNat * 256 + (lo8 v).toNat = v.toNat) ∧
    win Config.xs Config.xe = [0x00, 0x28, 0x01, 0x17] ∧ win Config.ys Config.ye = [0x00, 0x35, 0x00, 0xBB]

/-! ## Steps -/

/-- 30_encoding.md R106, R107 and 00_scope.md R13: with no operation in progress a step is exec of the next descriptor,
its bytes consumed. That the requests stand in the field host, and that a step takes the first whole descriptor of it, is
the model's choice (log entry 7). -/
def Obligations.StepRunsTheNextDescriptor : Prop :=
  ∀ (s : State) (i : Instr) (rest : List Byte),
    s.busy = false → s.seq = [] → decodeHost s.host = .ok i rest →
      step s = exec i { s with host := rest }

/-- The sequencer's port (the model's choice, log entry 8): a step is exec of the next frame group, the group consumed. -/
def Obligations.StepRunsTheNextFrameGroup : Prop :=
  ∀ (s : State) (i : Instr) (g : List Symbol) (gs : List (List Symbol)),
    s.busy = false → s.seq = g :: gs → decodeFrame s.par.cmd g = some i →
      step s = exec i { s with seq := gs }

/-- 60_exceptions.md R203 with the model's choice of log entry 13: the idle machine rests, and words that are no
instruction are refused by name. -/
def Obligations.StepRestsOrRefusesByName : Prop :=
  ∀ s : State, s.busy = false →
    (s.seq = [] → s.host = [] → step s = .next s) ∧
    (s.seq = [] → decodeHost s.host = .invalidOp → step s = .refused .invalidOp) ∧
    (s.seq = [] → s.host ≠ [] → decodeHost s.host = .truncated → step s = .refused .truncated) ∧
    (∀ g gs, s.seq = g :: gs → decodeFrame s.par.cmd g = none → step s = .refused .malformedFrame)

/-- 30_encoding.md R105: every operation code that R103 does not list is refused. -/
def Obligations.ReservedCodesAreRefused : Prop :=
  ∀ (s : State) (op : Byte) (rest : List Byte),
    s.busy = false → s.seq = [] → s.host = op :: rest →
      (0x07 ≤ op.toNat ∧ op.toNat ≤ 0x0F ∨ 0x12 ≤ op.toNat) → step s = .refused .invalidOp

/-- 60_exceptions.md R203, R206: exec answers the first refusal of R203's list whose condition holds, in R206's order, and a
next state where none holds, so never a fault (R200) and never a verdict outside the list; and step answers a next state, one
of those of the instruction it runs, or, on words that are no instruction, `invalid_op` or `truncated`, or the verdict of the
sequencer's port (the model's choice, log entry 8). -/
def Obligations.RefusalsAreExactlyTheListedOnes : Prop :=
  (∀ (i : Instr) (s : State) (r : Refusal), exec i s = .refused r ↔ (refusalsOf i s).head? = some r) ∧
  (∀ (i : Instr) (s : State), refusalsOf i s = [] ↔ ∃ t, exec i s = .next t) ∧
  (∀ (s : State), (∃ t, step s = .next t) ∨ ∃ r, step s = .refused r ∧
    ((∃ i u, s.nextMove = .run i u ∧ (refusalsOf i u).head? = some r) ∨
      (s.busy = false ∧ s.seq = [] ∧ decodeHost s.host = .invalidOp ∧ r = .invalidOp) ∨
      (s.busy = false ∧ s.seq = [] ∧ s.host ≠ [] ∧ decodeHost s.host = .truncated ∧ r = .truncated) ∨
      (s.busy = false ∧ r = .malformedFrame ∧ ∃ g gs, s.seq = g :: gs ∧ decodeFrame s.par.cmd g = none)))

/-! ## Encodings -/

/-- 95_test_vectors.md VE-1 to VE-9, VE-11, VE-12, VE-14 and VE-15, words of every family. VE-11 is decoded here and refused
by its meaning (`bad_address`, R193). The groups of a command symbol with data symbols are the model's form (log entry 8), and
the command bytes are the presumed defaults (log entry 5). -/
def Obligations.DecodedWordsOfEveryFamily : Prop :=
  decodeHost [0x00] = .ok .construct [] ∧
  decodeHost [0x01] = .ok .reset [] ∧
  decodeHost [0x01, 0x03] = .ok .reset [0x03] ∧
  decodeHost [0x02] = .ok .initPanel [] ∧
  decodeHost [0x03] = .ok .flush [] ∧
  decodeHost [0x04, 0x00, 0x05, 0xAB] = .ok (.fbWrite 5 0xAB) [] ∧
  decodeHost [0x04, 0xFD, 0x20, 0x00] = .ok (.fbWrite 64800 0x00) [] ∧
  decodeHost [0x05, 0xFD, 0x1F] = .ok (.fbRead 64799) [] ∧
  decodeHost [0x06] = .ok .blId [] ∧
  decodeHost [0x10, 0x2C] = .ok (.sendCommand 0x2C) [] ∧
  decodeHost [0x11, 0x00, 0x00, 0x00, 0x02, 0xAA, 0xBB] = .ok (.sendData [0xAA, 0xBB]) [] ∧
  decodeHost [0x07] = .invalidOp ∧ decodeHost [0x0F] = .invalidOp ∧
  decodeHost [0x12] = .invalidOp ∧ decodeHost [0xFF] = .invalidOp ∧
  decodeFrame CmdBytes.default [0x02C] = some .cmdRamwr ∧
  decodeFrame CmdBytes.default [0x1FF] = some (.wireData [0xFF]) ∧
  decodeFrame CmdBytes.default [0x036, 0x170] = some (.cmdMadctl [0x70]) ∧
  decodeFrame CmdBytes.default [0x0B7, 0x135] = some (.initEntry 0xB7 [0x35])

/-- 30_encoding.md R102, R106: a descriptor shorter than its format is truncated, for each format with operands. -/
def Obligations.ShortDescriptorsAreTruncated : Prop :=
  ∀ rest : List Byte,
    (rest.length < 3 → decodeHost (0x04 :: rest) = .truncated) ∧
    (rest.length < 2 → decodeHost (0x05 :: rest) = .truncated) ∧
    (rest.length < 1 → decodeHost (0x10 :: rest) = .truncated) ∧
    (rest.length < 4 → decodeHost (0x11 :: rest) = .truncated) ∧
    ∀ n : BitVec 32, rest.length < n.toNat → decodeHost (0x11 :: bytes32 n ++ rest) = .truncated

/-- 30_encoding.md R102, R103, R104, R106: decoding the encoding of any well-formed host operation, with any bytes after
it, gives the operation and those bytes. SHOW shares FLUSH's code (42_flush.md R177) and decodes to FLUSH. -/
def Obligations.DescriptorRoundTrip : Prop :=
  ∀ (p : Params) (b : CmdBytes) (i : Instr) (bs rest : List Byte),
    i.wellFormed p = true → encode b i = .descriptor bs →
      decodeHost (bs ++ rest) = .ok (if i = .showFrame then .flush else i) rest

/-- 30_encoding.md R91, R92, R96, R97, R111: the same for wire frames, panel commands and table entries, for command bytes
that are pairwise different and an instruction in the decoder's own spelling. The group of a command symbol with its data
symbols, and that spelling, are the model's choice (log entries 8 and 15): it leaves out a WC of a named command's byte, an
entry with no data, and an entry that is a named command with data. -/
def Obligations.FrameRoundTrip : Prop :=
  ∀ (p : Params) (b : CmdBytes) (i : Instr) (ss : List Symbol),
    b.distinct = true → i.wellFormed p = true → i.canonical b = true → encode b i = .frame ss →
      decodeFrame b ss = some i

/-- 42_flush.md R177: SHOW has FLUSH's code, FLUSH's rule and FLUSH's trace. -/
def Obligations.ShowIsFlush : Prop :=
  (∀ b, encode b .showFrame = encode b .flush) ∧ (∀ s, exec .showFrame s = exec .flush s)

/-- 30_encoding.md R98: a table written as a ROM image reads back. -/
def Obligations.RomImageRoundTrip : Prop :=
  ∀ t : InitTable, (∀ e ∈ t, e.2.length ≤ 255) → decodeRom (encodeRom t) = some t

/-! ## Bus transactions -/

/-- 40_bus_transactions.md R124: `SEND_COMMAND(c)` from any state, as the sequencer sends it, and as the HOST does with
RAW_BUS_ACCESS (30_encoding.md R108) or is refused without it. -/
def Obligations.CommandTransaction : Prop :=
  ∀ (c : Byte) (s : State), s.busy = false → s.life ≠ .unpowered →
    exec (.wireCommand c) s = .next (s.onBus high low c [.cs 1, .dc 0, .cs 0, .tx c, .cs 1]) ∧
    (s.par.rawBusAccess = true →
      exec (.sendCommand c) s =
        .next { s.onBus high low c [.cs 1, .dc 0, .cs 0, .tx c, .cs 1] with
          life := .initializing, shown := .undefined }) ∧
    (s.par.rawBusAccess = false → exec (.sendCommand c) s = .refused .rawNotAdmitted)

/-- 40_bus_transactions.md R125: `SEND_DATA(bs)` of one or more bytes, as the sequencer sends it and as the HOST does; no
bytes is refused. -/
def Obligations.DataTransaction : Prop :=
  ∀ (b : Byte) (bs : List Byte) (s : State), s.busy = false → s.life ≠ .unpowered →
    exec (.wireData (b :: bs)) s =
      .next (s.onBus high high (bs.getLastD b)
        ([.cs 1, .dc 1, .cs 0] ++ (b :: bs).map Event.tx ++ [.cs 1])) ∧
    (s.par.rawBusAccess = true →
      exec (.sendData (b :: bs)) s =
        .next { s.onBus high high (bs.getLastD b)
          ([.cs 1, .dc 1, .cs 0] ++ (b :: bs).map Event.tx ++ [.cs 1]) with
            life := .initializing, shown := .undefined }) ∧
    (s.par.rawBusAccess = true → exec (.sendData []) s = .refused .emptyPayload) ∧
    (s.par.rawBusAccess = false → exec (.sendData (b :: bs)) s = .refused .rawNotAdmitted) ∧
    exec (.wireData []) s = .refused .emptyPayload

/-- 40_bus_transactions.md R132 and 20_memory.md R68: after any trace with no transaction open, a transaction adds exactly
one frame, with one chip-select assertion, and leaves none open. -/
def Obligations.EachTransactionIsOneFrame : Prop :=
  ∀ (t : List Event) (c : Byte) (bs : List Byte), (frameScan t).cur = none →
    frames (t ++ evCmd c) = frames t ++ [⟨some 0, [c]⟩] ∧ (frameScan (t ++ evCmd c)).cur = none ∧
    frames (t ++ evData bs) = frames t ++ [⟨some 1, bs⟩] ∧ (frameScan (t ++ evData bs)).cur = none ∧
    assertions (evCmd c) = 1 ∧ assertions (evData bs) = 1 ∧ txBytes (evData bs) = bs

/-- 40_bus_transactions.md R130, R131: exactly one falling edge of chip-select in every transaction, whatever the line
held before, and its last level is high. For a level that is not known the model keeps the first write in the waveform (log
entry 20); with either known level, both covered here, the same holds. -/
def Obligations.OneFallingEdgeWhateverTheLineHeld : Prop :=
  ∀ (v : Option Level) (c : Byte) (bs : List Byte),
    (waveform .cs v (evCmd c)).count 0 = 1 ∧ (waveform .cs v (evCmd c)).getLast? = some 1 ∧
    (waveform .cs v (evData bs)).count 0 = 1 ∧ (waveform .cs v (evData bs)).getLast? = some 1

/-- 40_bus_transactions.md R133: what the two framings of a command's arguments share and how they differ: the command
frame, then one data frame of all the bytes or one for each byte, `dc = 1` in every one. -/
def Obligations.FramingChangesOnlyTheFrameCount : Prop :=
  ∀ (c : Byte) (ds : List Byte),
    (∀ f, txBytes (evEntry f c ds) = c :: ds) ∧
    (∀ v, dcAtTx v (evEntry .perEntry c ds) = dcAtTx v (evEntry .perByte c ds)) ∧
    (∀ f, (frames (evEntry f c ds)).head? = some ⟨some 0, [c]⟩) ∧
    (frames (evEntry .perEntry c ds)).tail = (if ds = [] then [] else [⟨some 1, ds⟩]) ∧
    (frames (evEntry .perByte c ds)).tail = ds.map (fun d => ⟨some 1, [d]⟩) ∧
    (frames (evEntry .perEntry c ds)).countP (fun g => decide (g.dc = some 1)) = min 1 ds.length ∧
    (frames (evEntry .perByte c ds)).countP (fun g => decide (g.dc = some 1)) = ds.length ∧
    (ds.length ≤ 1 → evEntry .perEntry c ds = evEntry .perByte c ds) ∧
    (evCmd c).length = 5 ∧ (∀ bs, (evData bs).length = bs.length + 4) ∧
    (1 ≤ ds.length → (evEntry .perEntry c ds).length = ds.length + 9) ∧
    (evEntry .perByte c ds).length = 5 + 5 * ds.length

/-- 40_bus_transactions.md R127, R128: a table entry, and each named command that carries data (41_reset_init.md R147,
R148), sends its command frame and then its data under ARG_FRAMING; nothing else changes. -/
def Obligations.EntryRowsSendCommandThenData : Prop :=
  ∀ (c : Byte) (ds : List Byte) (s : State), s.busy = false → s.life ≠ .unpowered →
    exec (.initEntry c ds) s = .next (s.afterEntry c ds) ∧
    exec (.cmdMadctl ds) s = .next (s.afterEntry s.par.cmd.madctl ds) ∧
    exec (.cmdColmod ds) s = .next (s.afterEntry s.par.cmd.colmod ds) ∧
    exec (.cmdPorch ds) s = .next (s.afterEntry s.par.cmd.porch ds) ∧
    exec (.cmdGammaPos ds) s = .next (s.afterEntry s.par.cmd.gammaPos ds) ∧
    exec (.cmdGammaNeg ds) s = .next (s.afterEntry s.par.cmd.gammaNeg ds)

/-- 42_flush.md R172: the two window commands carry their constant payloads. -/
def Obligations.WindowRowsSendTheConstants : Prop :=
  ∀ s : State, s.busy = false → s.life ≠ .unpowered →
    exec .cmdCaset s = .next (s.afterEntry s.par.cmd.caset [0x00, 0x28, 0x01, 0x17]) ∧
    exec .cmdRaset s = .next (s.afterEntry s.par.cmd.raset [0x00, 0x35, 0x00, 0xBB])

/-- 42_flush.md R173 and 41_reset_init.md R149: the bare commands are command frames of one byte. -/
def Obligations.BareRowsSendOneCommandFrame : Prop :=
  ∀ s : State, s.busy = false → s.life ≠ .unpowered →
    exec .cmdRamwr s = .next (s.onBus high low s.par.cmd.ramwr (evCmd s.par.cmd.ramwr)) ∧
    exec .cmdPixaddrMode s = .next (s.onBus high low s.par.cmd.pixaddrMode (evCmd s.par.cmd.pixaddrMode)) ∧
    exec .cmdSleepOut s = .next (s.onBus high low s.par.cmd.sleepOut (evCmd s.par.cmd.sleepOut)) ∧
    exec .cmdDisplayOn s = .next (s.onBus high low s.par.cmd.displayOn (evCmd s.par.cmd.displayOn))

/-! ## Reset, initialization, construction -/

/-- 41_reset_init.md R142 with R141: the reset pulse, three holds of at least 10 ms (10000000 in the model's unit, log
entry 10), and everything else unchanged. -/
def Obligations.ResetPulse : Prop :=
  ∀ s : State, s.busy = false → s.life ≠ .unpowered →
    ∃ d1 d2 d3, 10000000 ≤ d1 ∧ 10000000 ≤ d2 ∧ 10000000 ≤ d3 ∧
      exec .reset s =
        .next { s with
          rst := 1, life := .resetting, shown := .undefined, draws := s.draws + 3
          trace := s.trace ++ [.rst 1, .wait d1, .rst 0, .wait d2, .rst 1, .wait d3] }

/-- 41_reset_init.md R150: INITIALIZE completes for every table and sends the pulse (holds of at least 10 ms: 10000000 in
the model's unit, log entry 10) and then every entry in order; for a well-formed table the bus ends as the last bare command leaves it, and an empty table leaves it alone. -/
def Obligations.InitializeResult : Prop :=
  ∀ s : State, s.busy = false → s.life ≠ .unpowered →
    ∃ t d1 d2 d3, exec .initPanel s = .next t ∧
      10000000 ≤ d1 ∧ 10000000 ≤ d2 ∧ 10000000 ≤ d3 ∧
      t = { s with
        cs := t.cs, dc := t.dc, txb := t.txb
        rst := 1, life := .ready, shown := .undefined, draws := s.draws + 3
        trace := s.trace ++ evInit s.par.argFraming s.par.initTable d1 d2 d3 } ∧
      (s.tableWf = true → t.cs = 1 ∧ t.dc = 0 ∧ t.txb = s.par.cmd.displayOn) ∧
      (s.par.initTable = [] → t.cs = s.cs ∧ t.dc = s.dc ∧ t.txb = s.txb)

/-- 41_reset_init.md R155: CONSTRUCT from Unpowered (holds of at least 10 ms: 10000000 in the model's unit, log entry 10),
its refusal from any other state, and the refusal of every other operation while Unpowered. -/
def Obligations.ConstructResult : Prop :=
  (∀ s : State, s.busy = false → s.life = .unpowered →
    ∃ t d1 d2 d3, exec .construct s = .next t ∧
      10000000 ≤ d1 ∧ 10000000 ≤ d2 ∧ 10000000 ≤ d3 ∧
      t = { s with
        cs := t.cs, dc := t.dc, txb := t.txb
        cfg := s.par.construction, fb := []
        rst := 1, life := .ready, shown := .undefined, draws := s.draws + 3
        trace := evInit s.par.argFraming s.par.initTable d1 d2 d3 } ∧
      (∀ a, t.fbRead a = Params.fbInitAt s.par a) ∧
      (s.tableWf = true → t.cs = 1 ∧ t.dc = 0 ∧ t.txb = s.par.cmd.displayOn)) ∧
  (∀ s : State, s.busy = false → s.life ≠ .unpowered → exec .construct s = .refused .alreadyConstructed) ∧
  (∀ (i : Instr) (s : State), s.busy = false → s.life = .unpowered → i ≠ .construct →
    exec i s = .refused .notConstructed)

/-- 41_reset_init.md R156: LIFE after every instruction, and the states it is admitted from. -/
def Obligations.LifeTransitions : Prop :=
  ∀ (i : Instr) (s t : State), exec i s = .next t →
    t.life = lifeAfter i s.life ∧ (i = .construct → s.life = .unpowered) ∧ (i ≠ .construct → s.life ≠ .unpowered)

/-- 41_reset_init.md R152: two executions of INITIALIZE, from any states with the same parameters, append traces with
equal frames that differ in the drawn durations only; it is admitted again in every constructed state. -/
def Obligations.InitializationIsDeterministic : Prop :=
  ∀ s s' : State, s.busy = false → s'.busy = false → s.life ≠ .unpowered → s'.life ≠ .unpowered → s.par = s'.par →
    ∃ t t' es es', exec .initPanel s = .next t ∧ exec .initPanel s' = .next t' ∧
      t.trace = s.trace ++ es ∧ t'.trace = s'.trace ++ es' ∧ frames es = frames es' ∧
      es.map Event.forgetDuration = es'.map Event.forgetDuration

/-- 41_reset_init.md R151 and 70_reset_and_hazards.md R235: INITIALIZE waits only inside the reset pulse, and the third
hold, of at least 10 ms (10000000 in the model's unit, log entry 10), lies between the last write of the reset line and the
first chip-select assertion. -/
def Obligations.HoldsComeBeforeTheFirstCommand : Prop :=
  ∀ s t : State, exec .initPanel s = .next t →
    ∃ d1 d2 d3 es, t.trace = s.trace ++ [.rst 1, .wait d1, .rst 0, .wait d2, .rst 1, .wait d3] ++ es ∧
      10000000 ≤ d3 ∧ (∀ e ∈ es, ∀ d, e ≠ .wait d) ∧ ∀ e ∈ es, ∀ v, e ≠ .rst v

/-- 41_reset_init.md R158: the counts of events, frames and bytes of an initialization. -/
def Obligations.InitializationCounts : Prop :=
  ∀ (t : InitTable) (d1 d2 d3 : Nat),
    (evInit .perEntry t d1 d2 d3).length =
      6 + 5 * t.length + (t.map (fun e => e.2.length)).sum + 4 * t.countP (fun e => decide (1 ≤ e.2.length)) ∧
    (evInit .perByte t d1 d2 d3).length = 6 + 5 * t.length + 5 * (t.map (fun e => e.2.length)).sum ∧
    (frames (evInit .perEntry t d1 d2 d3)).length = t.length + t.countP (fun e => decide (1 ≤ e.2.length)) ∧
    (frames (evInit .perByte t d1 d2 d3)).length = t.length + (t.map (fun e => e.2.length)).sum ∧
    ∀ f, txBytes (evInit f t d1 d2 d3) = t.flatMap (fun e => e.1 :: e.2)

/-- 41_reset_init.md R149, R158: for a well-formed table the last three frames of an initialization are the three bare
commands, in order; the table at power-on is well formed (00_scope.md R10; a free value of that shape, log entry 4), so
CONSTRUCT from power-on, which completes, leaves a trace that ends with them. -/
def Obligations.InitializationEndsWithThreeBareCommands : Prop :=
  (∀ (b : CmdBytes) (n : Nat) (t : InitTable) (f : ArgFraming) (d1 d2 d3 : Nat), wfInit b n t = true →
    (∃ u, t = u ++ [(b.pixaddrMode, []), (b.sleepOut, []), (b.displayOn, [])]) ∧
    ∃ fs, frames (evInit f t d1 d2 d3) =
      fs ++ [⟨some 0, [b.pixaddrMode]⟩, ⟨some 0, [b.sleepOut]⟩, ⟨some 0, [b.displayOn]⟩]) ∧
  State.reset.tableWf = true ∧
  ∃ t fs, exec .construct State.reset = .next t ∧
    frames t.trace =
      fs ++ [⟨some 0, [t.par.cmd.pixaddrMode]⟩, ⟨some 0, [t.par.cmd.sleepOut]⟩, ⟨some 0, [t.par.cmd.displayOn]⟩]

/-- 41_reset_init.md R150, R158: INITIALIZE is RESET followed by every entry of the table in table order, after which
LIFE is Ready. -/
def Obligations.InitializeIsResetThenEveryEntry : Prop :=
  ∀ s : State, s.busy = false → s.life ≠ .unpowered →
    ∃ u, runAll (.reset :: s.par.initTable.map (fun e => Instr.initEntry e.1 e.2)) s = .next u ∧
      exec .initPanel s = .next { u with life := .ready, shown := .undefined }

/-! ## Flush -/

/-- 42_flush.md R174 (and R177, the second name) with CONCURRENT_FB_WRITE false: the whole flush, and everything else
unchanged. -/
def Obligations.FlushResult : Prop :=
  ∀ s : State, s.busy = false → s.life ≠ .unpowered → s.par.concurrentFbWrite = false →
    ∃ t, exec .flush s = .next t ∧ exec .showFrame s = .next t ∧
      t = { s.onBus high high (s.fbRead 64799)
        (evEntry s.par.argFraming s.par.cmd.caset [0x00, 0x28, 0x01, 0x17]
          ++ evEntry s.par.argFraming s.par.cmd.raset [0x00, 0x35, 0x00, 0xBB]
          ++ evCmd s.par.cmd.ramwr
          ++ evData (s.memRead 0 64800)) with
        shown := if s.life = .ready then .image (s.memRead 0 64800) else .undefined }

/-- 42_flush.md R175 (with R172, R173): the frames of a flush under both framings; the bulk bytes are one frame, the
last. -/
def Obligations.FlushFrames : Prop :=
  ∀ (b : CmdBytes) (fb : List Byte),
    frames (evFlush .perEntry b fb) =
      [⟨some 0, [b.caset]⟩, ⟨some 1, [0x00, 0x28, 0x01, 0x17]⟩, ⟨some 0, [b.raset]⟩,
        ⟨some 1, [0x00, 0x35, 0x00, 0xBB]⟩, ⟨some 0, [b.ramwr]⟩, ⟨some 1, fb⟩] ∧
    frames (evFlush .perByte b fb) =
      [⟨some 0, [b.caset]⟩, ⟨some 1, [0x00]⟩, ⟨some 1, [0x28]⟩, ⟨some 1, [0x01]⟩, ⟨some 1, [0x17]⟩,
        ⟨some 0, [b.raset]⟩, ⟨some 1, [0x00]⟩, ⟨some 1, [0x35]⟩, ⟨some 1, [0x00]⟩, ⟨some 1, [0xBB]⟩,
        ⟨some 0, [b.ramwr]⟩, ⟨some 1, fb⟩]

/-- 42_flush.md R179: the counts of one flush of a buffer of FB_SIZE bytes. -/
def Obligations.FlushCounts : Prop :=
  ∀ (b : CmdBytes) (fb : List Byte), fb.length = Config.fbSize →
    (evFlush .perEntry b fb).length = 64835 ∧ (evFlush .perByte b fb).length = 64859 ∧
    (∀ c w, w.length = 4 → (evEntry .perEntry c w).length = 13 ∧ (evEntry .perByte c w).length = 25) ∧
    (evCmd b.ramwr).length = 5 ∧ (evData fb).length = 64804 ∧
    assertions (evFlush .perEntry b fb) = 6 ∧ assertions (evFlush .perByte b fb) = 12 ∧
    ∀ f, (txBytes (evFlush f b fb)).length = 64811 ∧
      (frames (evFlush f b fb)).countP (fun g => decide (g.dc = some 0)) = 3 ∧
      (frames (evFlush f b fb)).countP (fun g => decide (g.dc = some 1)) = (match f with
        | .perEntry => 3
        | .perByte => 9) ∧
      (dcAtTx none (evFlush f b fb)).count (some 0) = 3 ∧
      (dcAtTx none (evFlush f b fb)).count (some 1) = 64808

/-- 42_flush.md R180 (a), 95_test_vectors.md S6: the bytes of a flush; the first eleven do not depend on the buffer. -/
def Obligations.FirstElevenBytesIgnoreTheBuffer : Prop :=
  ∀ (f : ArgFraming) (b : CmdBytes) (fb : List Byte),
    txBytes (evFlush f b fb) =
      [b.caset, 0x00, 0x28, 0x01, 0x17, b.raset, 0x00, 0x35, 0x00, 0xBB, b.ramwr] ++ fb

/-- 30_encoding.md R111: what the panel reads of a flush, data belonging to the most recent command. -/
def Obligations.PanelReadsThreeCommandsOfAFlush : Prop :=
  ∀ (f : ArgFraming) (b : CmdBytes) (fb : List Byte),
    commandsOf (frames (evFlush f b fb)) =
      [(b.caset, [0x00, 0x28, 0x01, 0x17]), (b.raset, [0x00, 0x35, 0x00, 0xBB]), (b.ramwr, fb)]

/-- 42_flush.md R176 (the ghost SHOWN, an assumption about the panel): after a flush in Ready SHOWN is the buffer as it
was, otherwise undefined; it keeps that value over every run of instructions, of any length, none of which is a FLUSH, RESET,
INITIALIZE, CONSTRUCT or raw primitive. -/
def Obligations.PanelKeepsTheImageUntilTheNextFlush : Prop :=
  ∀ (f : Instr) (s t : State), isFlush f = true → s.par.concurrentFbWrite = false → exec f s = .next t →
    t.shown = (if s.life = .ready then .image s.fbBytes else .undefined) ∧
      ∀ (is : List Instr) (u : State), (∀ i ∈ is, writesShown i = false) → runAll is t = .next u → u.shown = t.shown

/-- 42_flush.md R180 (b): a second flush appends the same events and leaves the same image. -/
def Obligations.SecondFlushRepeatsTheFirst : Prop :=
  ∀ s t : State, s.par.concurrentFbWrite = false → exec .flush s = .next t →
    ∃ u es, exec .flush t = .next u ∧ t.trace = s.trace ++ es ∧ u.trace = t.trace ++ es ∧ u.shown = t.shown

/-- 42_flush.md R172 to R175: a flush is its four table rows in order, and then the promise of R176. -/
def Obligations.FlushIsItsFourRows : Prop :=
  ∀ s : State, s.busy = false → s.life ≠ .unpowered → s.par.concurrentFbWrite = false →
    ∃ u, runAll [.cmdCaset, .cmdRaset, .cmdRamwr, .wireData s.fbBytes] s = .next u ∧
      exec .flush s = .next { u with shown := if s.life = .ready then .image s.fbBytes else .undefined }

/-! ## The frame-buffer port and the backlight identity -/

/-- 43_buffer_access.md R191: FB_WRITE stores one byte and changes nothing else; admitted during a flush with
CONCURRENT_FB_WRITE (70_reset_and_hazards.md R241). -/
def Obligations.WriteStoresOneByte : Prop :=
  ∀ (a : Half) (b : Byte) (s : State),
    (s.busy = true → s.par.concurrentFbWrite = true) → s.life ≠ .unpowered → a.toNat < 64800 →
    ∃ t, exec (.fbWrite a b) s = .next t ∧ t = { s with fb := t.fb } ∧ t.fbRead a.toNat = b ∧
      ∀ x, x ≠ a.toNat → t.fbRead x = s.fbRead x

/-- 43_buffer_access.md R192: FB_READ returns the byte at its address and changes nothing but the result. -/
def Obligations.ReadReturnsTheByte : Prop :=
  ∀ (a : Half) (s : State), s.busy = false → s.life ≠ .unpowered → a.toNat < 64800 →
    exec (.fbRead a) s = .next { s with result := .byte (s.fbRead a.toNat) }

/-- 43_buffer_access.md R191, R192: a read after a write returns the byte written, and of two writes to an address the
later stays, as one state. -/
def Obligations.LaterWriteWins : Prop :=
  ∀ (a : Half) (b c : Byte) (s t u : State), s.fbWf = true →
    exec (.fbWrite a b) s = .next t → exec (.fbWrite a c) t = .next u →
      exec (.fbWrite a c) s = .next u ∧
      (s.busy = false → exec (.fbRead a) u = .next { u with result := .byte c })

/-- 43_buffer_access.md R191: "writing the value already there changes nothing". -/
def Obligations.RewritingAByteChangesNothing : Prop :=
  ∀ (a : Half) (s : State), s.busy = false → s.life ≠ .unpowered → a.toNat < 64800 → s.fbWf = true →
    exec (.fbWrite a (s.fbRead a.toNat)) s = .next s

/-- 43_buffer_access.md R193: an address of 64800 or more is refused; there is no wrap-around. -/
def Obligations.BadAddressesAreRefused : Prop :=
  ∀ (a : Half) (b : Byte) (s : State), s.busy = false → s.life ≠ .unpowered → 64800 ≤ a.toNat →
    exec (.fbWrite a b) s = .refused .badAddress ∧ exec (.fbRead a) s = .refused .badAddress

/-- 43_buffer_access.md R195: BL_ID returns CFG.BL_ID, every time, and changes nothing but the result. -/
def Obligations.BacklightIdentityIsReturned : Prop :=
  ∀ s : State, s.busy = false → s.life ≠ .unpowered →
    exec .blId s = .next { s with result := .ident s.cfg.blId } ∧
    ∀ i t, exec i s = .next t → t.cfg.blId = s.cfg.blId

/-- 20_memory.md R65, 30_encoding.md R110, 43_buffer_access.md R197: PIXEL_WRITE stores a pixel in the byte order asked
for, with `big` its high byte at the lower address and with `little` its low byte, and adds no event. -/
def Obligations.PixelWriteStoresThePixel : Prop :=
  ∀ (o : PixelByteOrder) (k : Nat) (p : Half) (s : State), k < 32400 → s.busy = false → s.life ≠ .unpowered →
    ∃ t, runAll (Pseudo.expand o (.pixelWrite k p)) s = .next t ∧
      (o = .big → t.fbRead (2 * k) = hi8 p ∧ t.fbRead (2 * k + 1) = lo8 p) ∧
      (o = .little → t.fbRead (2 * k) = lo8 p ∧ t.fbRead (2 * k + 1) = hi8 p) ∧
      (∀ x, x ≠ 2 * k → x ≠ 2 * k + 1 → t.fbRead x = s.fbRead x) ∧ t = { s with fb := t.fb }

/-! ## Whole-machine rules -/

/-- 10_state.md R39 (with R33, R36): what each instruction leaves unchanged. -/
def Obligations.AccessMatrix : Prop :=
  ∀ (i : Instr) (s t : State), exec i s = .next t →
    t.par = s.par ∧ t.host = s.host ∧ t.seq = s.seq ∧
    (i ≠ .construct → t.cfg = s.cfg) ∧
    (writesFb i = false → t.fb = s.fb ∧ ∀ a, t.fbRead a = s.fbRead a) ∧
    (writesRst i = false → t.rst = s.rst ∧ t.draws = s.draws) ∧
    (isQuiet i = true → t.cs = s.cs ∧ t.dc = s.dc ∧ t.txb = s.txb ∧ t.trace = s.trace ∧ t.life = s.life) ∧
    (i = .reset → t.cs = s.cs ∧ t.dc = s.dc ∧ t.txb = s.txb) ∧
    (writesShown i = false → t.shown = s.shown) ∧
    (hasResult i = false → t.result = s.result) ∧
    (isFlush i = false → t.busy = s.busy ∧ t.sp = s.sp)

/-- 10_state.md R32 and 20_memory.md R71: the trace only grows, but for CONSTRUCT, which starts it. -/
def Obligations.TraceOnlyGrows : Prop :=
  (∀ (i : Instr) (s t : State), i ≠ .construct → exec i s = .next t → s.trace <+: t.trace) ∧
  (∀ s t : State, s.life ≠ .unpowered → step s = .next t → s.trace <+: t.trace)

/-- 70_reset_and_hazards.md R232: after construction every well-formed operation but CONSTRUCT is admitted, the
host-issued primitives where RAW_BUS_ACCESS is true. -/
def Obligations.EveryOperationIsAdmittedAfterConstruction : Prop :=
  ∀ (i : Instr) (s : State), s.constructedIdle = true → i.wellFormed s.par = true → i ≠ .construct →
    (isRaw i = true → s.par.rawBusAccess = true) → Admitted (exec i s)

/-- 60_exceptions.md R203, R206 and 70_reset_and_hazards.md R241: while an operation is in progress every request is
refused as busy, except an FB_WRITE with CONCURRENT_FB_WRITE. -/
def Obligations.BusyRefusesEveryRequest : Prop :=
  ∀ (i : Instr) (s : State), s.busy = true →
    (s.par.concurrentFbWrite = false ∨ ∀ a b, i ≠ .fbWrite a b) → exec i s = .refused .busy

/-- 41_reset_init.md R157: in two constructed states that differ in LIFE and SHOWN only, an instruction does the same on
the lines, the trace, the buffer and the result. -/
def Obligations.WireBehaviourIgnoresLife : Prop :=
  ∀ (i : Instr) (s t : State) (l : Life) (x : Shown), l ≠ .unpowered → s.life ≠ .unpowered → exec i s = .next t →
    ∃ t', exec i { s with life := l, shown := x } = .next t' ∧
      t' = { t with life := t'.life, shown := t'.shown }

/-! ## Invariants -/

/-- Every step keeps the frame buffer in canonical form (20_memory.md R61: addresses 0 to 64799 only). -/
def Obligations.StepKeepsTheMemoryForm : Prop :=
  ∀ s t : State, s.fbWf = true → step s = .next t → t.fbWf = true

/-- 10_state.md R26, R33: every step keeps "SHOWN is defined only in Ready". -/
def Obligations.StepKeepsShownJustified : Prop :=
  ∀ s t : State, s.shownJustified → step s = .next t → t.shownJustified

/-- 40_bus_transactions.md R126, R132, 30_encoding.md R91, 10_state.md R21, R34, R35: every step keeps the wire invariant,
with CONCURRENT_FB_WRITE false or true, a flush in progress included; and it says that the whole trace keeps the discipline,
that every complete frame is of format WC or WD, and that between operations no transaction is open. -/
def Obligations.StepKeepsTheWireDiscipline : Prop :=
  (∀ s t : State, s.WireInv → step s = .next t → t.WireInv) ∧
  ∀ s : State, s.WireInv →
    discipline none s.trace ≠ none ∧ (frames s.trace).all Frame.isWcOrWd = true ∧
    (s.busy = false → traceClean s.trace = true ∧ (frameScan s.trace).cur = none) ∧
    (s.par.concurrentFbWrite = false → s.busy = false ∧ s.sp = 0)

/-- 10_state.md R27, R31, R36: every step keeps the construction parameters as CONSTRUCT was given them, and a table that
satisfies WF_INIT. -/
def Obligations.StepKeepsTheConfiguration : Prop :=
  ∀ s t : State, step s = .next t →
    (s.cfgFixed → t.cfgFixed) ∧ (s.tableWf = true → t.tableWf = true) ∧ t.par = s.par

/-- The power-on state meets the invariants; that its table satisfies WF_INIT is 00_scope.md R10. -/
def Obligations.PowerOnMeetsTheInvariants : Prop :=
  State.reset.fbWf = true ∧ State.reset.shownJustified ∧ State.reset.WireInv ∧ State.reset.cfgFixed ∧
    State.reset.tableWf = true

/-! ## A flush with CONCURRENT_FB_WRITE -/

/-- 10_state.md R34, R35, 70_reset_and_hazards.md R241: with CONCURRENT_FB_WRITE a flush begins with BUSY 1 and SP 0, and
then a step is its next event, or an FB_WRITE where the HOST asks for one. -/
def Obligations.ConcurrentFlushBeginsAndGoesOn : Prop :=
  (∀ s : State, s.busy = false → s.life ≠ .unpowered → s.par.concurrentFbWrite = true →
    exec .flush s = .next { s with busy := true, sp := 0 }) ∧
  (∀ s : State, s.busy = true → s.par.concurrentFbWrite = true →
    (∀ a b rest, decodeHost s.host ≠ .ok (.fbWrite a b) rest) → step s = .next s.tick) ∧
  (∀ (s : State) a b rest, s.busy = true → s.par.concurrentFbWrite = true →
    decodeHost s.host = .ok (.fbWrite a b) rest →
      step s = exec (.fbWrite a b) { s with host := rest, draws := s.draws + 1 } ∨
      step s = .next (State.tick { s with draws := s.draws + 1 }))

/-- 10_state.md R35 and 70_reset_and_hazards.md R241: an event of a flush in progress is the one at SP of the event list
of the buffer as it is now; its line or TXB takes the event's value, SP advances by one, or the flush ends after its last
event, and nothing else changes; and TX number `i` of the bulk frame is read from FB[i] then. That with no event at SP, which
no run reaches, it only ends the flush is the model's choice (log entry 11). -/
def Obligations.FlushEventReadsTheBufferNow : Prop :=
  (∀ (s : State) (e : Event), s.flushEvents[s.sp]? = some e →
    (s.sp + 1 < s.flushEvents.length →
      s.tick = { s with
        cs := (Event.levelOn .cs e).getD s.cs, dc := (Event.levelOn .dc e).getD s.dc
        rst := (Event.levelOn .rst e).getD s.rst, txb := e.txByte.getD s.txb
        trace := s.trace ++ [e], sp := s.sp + 1 }) ∧
    (s.sp + 1 = s.flushEvents.length →
      s.tick = { s with
        cs := (Event.levelOn .cs e).getD s.cs, dc := (Event.levelOn .dc e).getD s.dc
        rst := (Event.levelOn .rst e).getD s.rst, txb := e.txByte.getD s.txb
        trace := s.trace ++ [e], sp := 0, busy := false, shown := s.tick.shown } ∧
      (s.life ≠ .ready → s.tick.shown = .undefined))) ∧
  (∀ s : State, s.flushEvents[s.sp]? = none →
    s.tick = { s with sp := 0, busy := false, shown := s.tick.shown }) ∧
  (∀ (s : State) (i : Nat), i < 64800 →
    s.flushEvents[bulkStart s.par.argFraming + i]? = some (.tx (s.fbRead i)))

/-- 70_reset_and_hazards.md R241 against 42_flush.md R174: a flush run event by event, with no write in between, ends in
the state of the atomic flush. -/
def Obligations.UninterruptedFlushEqualsTheAtomicOne : Prop :=
  ∀ s : State, s.busy = false → s.sp = 0 →
    Nat.iterate State.tick s.flushEvents.length s.flushStart = s.flushNow

/-- 70_reset_and_hazards.md R241: after a flush in Ready with any frame-buffer writes between its events, each byte of
SHOWN equals a value its address held in some state between the start and the end. -/
def Obligations.TornFlushShowsValuesHeldMeanwhile : Prop :=
  ∀ (s t : State) (m : List (Option (Nat × Byte))), s.life = .ready →
    m.count none = s.flushEvents.length → m.getLast? = some none →
    (flushRun m s.flushStart).getLast? = some t →
      t.busy = false ∧ ∃ bytes, t.shown = .image bytes ∧ bytes.length = 64800 ∧
        ∀ i, i < 64800 → ∃ u ∈ flushRun m s.flushStart, bytes[i]? = some (u.fbRead i)
end

