-- ==== Sys2Proof/Laws/Decode.lean ====
section
/-! SUPPORT. The fields of the encodings: splitting and joining bytes and symbols. -/

namespace Sys2Proof

/-- Joining the two bytes of a 16-bit value gives it back (43_buffer_access.md R198: "exact split"). -/
@[simp] theorem be16_hi8_lo8 (v : Half) : be16 (hi8 v) (lo8 v) = v := by
  unfold be16 hi8 lo8
  ext i hi
  simp only [BitVec.getElem_append, BitVec.getElem_extractLsb']
  split
  · simp [BitVec.getLsbD_eq_getElem hi]
  · rename_i h
    have : 8 + (i - 8) = i := by omega
    rw [this, BitVec.getLsbD_eq_getElem hi]

/-- Joining the four bytes of a length gives it back. -/
@[simp] theorem be32_bytes (v : BitVec 32) :
    be32 (v.extractLsb' 24 8) (v.extractLsb' 16 8) (v.extractLsb' 8 8) (v.extractLsb' 0 8) = v := by
  unfold be32
  ext i hi
  simp only [BitVec.getElem_append, BitVec.getElem_extractLsb']
  split
  · simp [BitVec.getLsbD_eq_getElem hi]
  · split
    · have : 8 + (i - 8) = i := by omega
      rw [this, BitVec.getLsbD_eq_getElem hi]
    · split
      · have : 16 + (i - 8 - 8) = i := by omega
        rw [this, BitVec.getLsbD_eq_getElem hi]
      · have : 24 + (i - 8 - 8 - 8) = i := by omega
        rw [this, BitVec.getLsbD_eq_getElem hi]

/-- The bits of a symbol made from its parts. -/
theorem mkSymbol_getLsbD (v : Level) (b : Byte) (i : Nat) :
    (mkSymbol v b).getLsbD i = if i < 8 then b.getLsbD i else v.getLsbD (i - 8) := by
  unfold mkSymbol
  exact BitVec.getLsbD_append

/-- Bit 8 of a symbol made from its parts. -/
@[simp] theorem symbolDc_mkSymbol (v : Level) (b : Byte) : symbolDc (mkSymbol v b) = v := by
  unfold symbolDc
  ext i hi
  rw [BitVec.getElem_extractLsb', mkSymbol_getLsbD, if_neg (by omega), Nat.add_sub_cancel_left,
    BitVec.getLsbD_eq_getElem hi]

/-- The byte of a symbol made from its parts. -/
@[simp] theorem symbolByte_mkSymbol (v : Level) (b : Byte) : symbolByte (mkSymbol v b) = b := by
  unfold symbolByte
  ext i hi
  rw [BitVec.getElem_extractLsb', mkSymbol_getLsbD, if_pos (by omega), Nat.zero_add, BitVec.getLsbD_eq_getElem hi]

/-- The symbols of a data list are all data symbols, and its bytes are the list. -/
@[simp] theorem map_symbolByte_mkSymbol (v : Level) (bs : List Byte) :
    (bs.map (mkSymbol v)).map symbolByte = bs := by
  simp [List.map_map, Function.comp_def]

@[simp] theorem all_dc_mkSymbol (bs : List Byte) :
    (bs.map (mkSymbol high)).all (fun x => symbolDc x == high) = true := by
  simp [List.all_map, Function.comp_def]

/-- A group made of a command and its data decodes to the instruction of that command. -/
theorem decodeFrame_frameGroup (b : CmdBytes) (c : Byte) (ds : List Byte) :
    decodeFrame b (frameGroup c ds) = some (nameCommand b c ds) := by
  simp only [frameGroup, decodeFrame, all_dc_mkSymbol, map_symbolByte_mkSymbol, symbolDc_mkSymbol,
    symbolByte_mkSymbol, if_true]

end Sys2Proof
end

