-- ==== Sys2Proof/Laws/State.lean ====
section
/-! SUPPORT. One lemma for each field of State after each named update, so that no proof unfolds a record update. -/

namespace Sys2Proof.Machine


/-! ## emit -/

@[simp] theorem State.emit_cs (s : State) (e : Event) : (s.emit e).cs = s.cs := rfl
@[simp] theorem State.emit_dc (s : State) (e : Event) : (s.emit e).dc = s.dc := rfl
@[simp] theorem State.emit_rst (s : State) (e : Event) : (s.emit e).rst = s.rst := rfl
@[simp] theorem State.emit_txb (s : State) (e : Event) : (s.emit e).txb = s.txb := rfl
@[simp] theorem State.emit_life (s : State) (e : Event) : (s.emit e).life = s.life := rfl
@[simp] theorem State.emit_cfg (s : State) (e : Event) : (s.emit e).cfg = s.cfg := rfl
@[simp] theorem State.emit_fb (s : State) (e : Event) : (s.emit e).fb = s.fb := rfl
@[simp] theorem State.emit_trace (s : State) (e : Event) : (s.emit e).trace = s.trace ++ [e] := rfl
@[simp] theorem State.emit_shown (s : State) (e : Event) : (s.emit e).shown = s.shown := rfl
@[simp] theorem State.emit_busy (s : State) (e : Event) : (s.emit e).busy = s.busy := rfl
@[simp] theorem State.emit_sp (s : State) (e : Event) : (s.emit e).sp = s.sp := rfl
@[simp] theorem State.emit_par (s : State) (e : Event) : (s.emit e).par = s.par := rfl
@[simp] theorem State.emit_host (s : State) (e : Event) : (s.emit e).host = s.host := rfl
@[simp] theorem State.emit_seq (s : State) (e : Event) : (s.emit e).seq = s.seq := rfl
@[simp] theorem State.emit_result (s : State) (e : Event) : (s.emit e).result = s.result := rfl
@[simp] theorem State.emit_draws (s : State) (e : Event) : (s.emit e).draws = s.draws := rfl

/-! ## tx -/

@[simp] theorem State.tx_cs (s : State) (b : Byte) : (s.tx b).cs = s.cs := rfl
@[simp] theorem State.tx_dc (s : State) (b : Byte) : (s.tx b).dc = s.dc := rfl
@[simp] theorem State.tx_rst (s : State) (b : Byte) : (s.tx b).rst = s.rst := rfl
@[simp] theorem State.tx_txb (s : State) (b : Byte) : (s.tx b).txb = b := rfl
@[simp] theorem State.tx_life (s : State) (b : Byte) : (s.tx b).life = s.life := rfl
@[simp] theorem State.tx_cfg (s : State) (b : Byte) : (s.tx b).cfg = s.cfg := rfl
@[simp] theorem State.tx_fb (s : State) (b : Byte) : (s.tx b).fb = s.fb := rfl
@[simp] theorem State.tx_trace (s : State) (b : Byte) : (s.tx b).trace = s.trace ++ [.tx b] := rfl
@[simp] theorem State.tx_shown (s : State) (b : Byte) : (s.tx b).shown = s.shown := rfl
@[simp] theorem State.tx_busy (s : State) (b : Byte) : (s.tx b).busy = s.busy := rfl
@[simp] theorem State.tx_sp (s : State) (b : Byte) : (s.tx b).sp = s.sp := rfl
@[simp] theorem State.tx_par (s : State) (b : Byte) : (s.tx b).par = s.par := rfl
@[simp] theorem State.tx_host (s : State) (b : Byte) : (s.tx b).host = s.host := rfl
@[simp] theorem State.tx_seq (s : State) (b : Byte) : (s.tx b).seq = s.seq := rfl
@[simp] theorem State.tx_result (s : State) (b : Byte) : (s.tx b).result = s.result := rfl
@[simp] theorem State.tx_draws (s : State) (b : Byte) : (s.tx b).draws = s.draws := rfl

/-! ## hold -/

@[simp] theorem State.hold_cs (s : State) (n : Nat) : (s.hold n).cs = s.cs := rfl
@[simp] theorem State.hold_dc (s : State) (n : Nat) : (s.hold n).dc = s.dc := rfl
@[simp] theorem State.hold_rst (s : State) (n : Nat) : (s.hold n).rst = s.rst := rfl
@[simp] theorem State.hold_txb (s : State) (n : Nat) : (s.hold n).txb = s.txb := rfl
@[simp] theorem State.hold_life (s : State) (n : Nat) : (s.hold n).life = s.life := rfl
@[simp] theorem State.hold_cfg (s : State) (n : Nat) : (s.hold n).cfg = s.cfg := rfl
@[simp] theorem State.hold_fb (s : State) (n : Nat) : (s.hold n).fb = s.fb := rfl
@[simp] theorem State.hold_trace (s : State) (n : Nat) : (s.hold n).trace = s.trace ++ [.wait (holdTime n s.draws)] := rfl
@[simp] theorem State.hold_shown (s : State) (n : Nat) : (s.hold n).shown = s.shown := rfl
@[simp] theorem State.hold_busy (s : State) (n : Nat) : (s.hold n).busy = s.busy := rfl
@[simp] theorem State.hold_sp (s : State) (n : Nat) : (s.hold n).sp = s.sp := rfl
@[simp] theorem State.hold_par (s : State) (n : Nat) : (s.hold n).par = s.par := rfl
@[simp] theorem State.hold_host (s : State) (n : Nat) : (s.hold n).host = s.host := rfl
@[simp] theorem State.hold_seq (s : State) (n : Nat) : (s.hold n).seq = s.seq := rfl
@[simp] theorem State.hold_result (s : State) (n : Nat) : (s.hold n).result = s.result := rfl
@[simp] theorem State.hold_draws (s : State) (n : Nat) : (s.hold n).draws = s.draws + 1 := rfl

/-! ## fbPut -/

@[simp] theorem State.fbPut_cs (s : State) (a : Nat) (b : Byte) : (s.fbPut a b).cs = s.cs := rfl
@[simp] theorem State.fbPut_dc (s : State) (a : Nat) (b : Byte) : (s.fbPut a b).dc = s.dc := rfl
@[simp] theorem State.fbPut_rst (s : State) (a : Nat) (b : Byte) : (s.fbPut a b).rst = s.rst := rfl
@[simp] theorem State.fbPut_txb (s : State) (a : Nat) (b : Byte) : (s.fbPut a b).txb = s.txb := rfl
@[simp] theorem State.fbPut_life (s : State) (a : Nat) (b : Byte) : (s.fbPut a b).life = s.life := rfl
@[simp] theorem State.fbPut_cfg (s : State) (a : Nat) (b : Byte) : (s.fbPut a b).cfg = s.cfg := rfl
@[simp] theorem State.fbPut_fb (s : State) (a : Nat) (b : Byte) : (s.fbPut a b).fb = Mem.write (Params.fbInitAt s.par) s.fb a b := rfl
@[simp] theorem State.fbPut_trace (s : State) (a : Nat) (b : Byte) : (s.fbPut a b).trace = s.trace := rfl
@[simp] theorem State.fbPut_shown (s : State) (a : Nat) (b : Byte) : (s.fbPut a b).shown = s.shown := rfl
@[simp] theorem State.fbPut_busy (s : State) (a : Nat) (b : Byte) : (s.fbPut a b).busy = s.busy := rfl
@[simp] theorem State.fbPut_sp (s : State) (a : Nat) (b : Byte) : (s.fbPut a b).sp = s.sp := rfl
@[simp] theorem State.fbPut_par (s : State) (a : Nat) (b : Byte) : (s.fbPut a b).par = s.par := rfl
@[simp] theorem State.fbPut_host (s : State) (a : Nat) (b : Byte) : (s.fbPut a b).host = s.host := rfl
@[simp] theorem State.fbPut_seq (s : State) (a : Nat) (b : Byte) : (s.fbPut a b).seq = s.seq := rfl
@[simp] theorem State.fbPut_result (s : State) (a : Nat) (b : Byte) : (s.fbPut a b).result = s.result := rfl
@[simp] theorem State.fbPut_draws (s : State) (a : Nat) (b : Byte) : (s.fbPut a b).draws = s.draws := rfl

/-! ## rawUse -/

@[simp] theorem State.rawUse_cs (s : State) : (s.rawUse).cs = s.cs := rfl
@[simp] theorem State.rawUse_dc (s : State) : (s.rawUse).dc = s.dc := rfl
@[simp] theorem State.rawUse_rst (s : State) : (s.rawUse).rst = s.rst := rfl
@[simp] theorem State.rawUse_txb (s : State) : (s.rawUse).txb = s.txb := rfl
@[simp] theorem State.rawUse_life (s : State) : (s.rawUse).life = .initializing := rfl
@[simp] theorem State.rawUse_cfg (s : State) : (s.rawUse).cfg = s.cfg := rfl
@[simp] theorem State.rawUse_fb (s : State) : (s.rawUse).fb = s.fb := rfl
@[simp] theorem State.rawUse_trace (s : State) : (s.rawUse).trace = s.trace := rfl
@[simp] theorem State.rawUse_shown (s : State) : (s.rawUse).shown = .undefined := rfl
@[simp] theorem State.rawUse_busy (s : State) : (s.rawUse).busy = s.busy := rfl
@[simp] theorem State.rawUse_sp (s : State) : (s.rawUse).sp = s.sp := rfl
@[simp] theorem State.rawUse_par (s : State) : (s.rawUse).par = s.par := rfl
@[simp] theorem State.rawUse_host (s : State) : (s.rawUse).host = s.host := rfl
@[simp] theorem State.rawUse_seq (s : State) : (s.rawUse).seq = s.seq := rfl
@[simp] theorem State.rawUse_result (s : State) : (s.rawUse).result = s.result := rfl
@[simp] theorem State.rawUse_draws (s : State) : (s.rawUse).draws = s.draws := rfl

/-! ## flushStart -/

@[simp] theorem State.flushStart_cs (s : State) : (s.flushStart).cs = s.cs := rfl
@[simp] theorem State.flushStart_dc (s : State) : (s.flushStart).dc = s.dc := rfl
@[simp] theorem State.flushStart_rst (s : State) : (s.flushStart).rst = s.rst := rfl
@[simp] theorem State.flushStart_txb (s : State) : (s.flushStart).txb = s.txb := rfl
@[simp] theorem State.flushStart_life (s : State) : (s.flushStart).life = s.life := rfl
@[simp] theorem State.flushStart_cfg (s : State) : (s.flushStart).cfg = s.cfg := rfl
@[simp] theorem State.flushStart_fb (s : State) : (s.flushStart).fb = s.fb := rfl
@[simp] theorem State.flushStart_trace (s : State) : (s.flushStart).trace = s.trace := rfl
@[simp] theorem State.flushStart_shown (s : State) : (s.flushStart).shown = s.shown := rfl
@[simp] theorem State.flushStart_busy (s : State) : (s.flushStart).busy = true := rfl
@[simp] theorem State.flushStart_sp (s : State) : (s.flushStart).sp = 0 := rfl
@[simp] theorem State.flushStart_par (s : State) : (s.flushStart).par = s.par := rfl
@[simp] theorem State.flushStart_host (s : State) : (s.flushStart).host = s.host := rfl
@[simp] theorem State.flushStart_seq (s : State) : (s.flushStart).seq = s.seq := rfl
@[simp] theorem State.flushStart_result (s : State) : (s.flushStart).result = s.result := rfl
@[simp] theorem State.flushStart_draws (s : State) : (s.flushStart).draws = s.draws := rfl

/-! ## flushEnd -/

@[simp] theorem State.flushEnd_cs (s : State) : (s.flushEnd).cs = s.cs := rfl
@[simp] theorem State.flushEnd_dc (s : State) : (s.flushEnd).dc = s.dc := rfl
@[simp] theorem State.flushEnd_rst (s : State) : (s.flushEnd).rst = s.rst := rfl
@[simp] theorem State.flushEnd_txb (s : State) : (s.flushEnd).txb = s.txb := rfl
@[simp] theorem State.flushEnd_life (s : State) : (s.flushEnd).life = s.life := rfl
@[simp] theorem State.flushEnd_cfg (s : State) : (s.flushEnd).cfg = s.cfg := rfl
@[simp] theorem State.flushEnd_fb (s : State) : (s.flushEnd).fb = s.fb := rfl
@[simp] theorem State.flushEnd_trace (s : State) : (s.flushEnd).trace = s.trace := rfl
@[simp] theorem State.flushEnd_shown (s : State) : (s.flushEnd).shown = s.promise (lastSent Config.fbSize s.trace) := rfl
@[simp] theorem State.flushEnd_busy (s : State) : (s.flushEnd).busy = false := rfl
@[simp] theorem State.flushEnd_sp (s : State) : (s.flushEnd).sp = 0 := rfl
@[simp] theorem State.flushEnd_par (s : State) : (s.flushEnd).par = s.par := rfl
@[simp] theorem State.flushEnd_host (s : State) : (s.flushEnd).host = s.host := rfl
@[simp] theorem State.flushEnd_seq (s : State) : (s.flushEnd).seq = s.seq := rfl
@[simp] theorem State.flushEnd_result (s : State) : (s.flushEnd).result = s.result := rfl
@[simp] theorem State.flushEnd_draws (s : State) : (s.flushEnd).draws = s.draws := rfl

/-! ## lineWrite -/

@[simp] theorem State.lineWrite_cs (s : State) (L : Line) (v : Level) : (s.lineWrite L v).cs = if L = .cs then v else s.cs := by cases L <;> rfl
@[simp] theorem State.lineWrite_dc (s : State) (L : Line) (v : Level) : (s.lineWrite L v).dc = if L = .dc then v else s.dc := by cases L <;> rfl
@[simp] theorem State.lineWrite_rst (s : State) (L : Line) (v : Level) : (s.lineWrite L v).rst = if L = .rst then v else s.rst := by cases L <;> rfl
@[simp] theorem State.lineWrite_txb (s : State) (L : Line) (v : Level) : (s.lineWrite L v).txb = s.txb := by cases L <;> rfl
@[simp] theorem State.lineWrite_life (s : State) (L : Line) (v : Level) : (s.lineWrite L v).life = s.life := by cases L <;> rfl
@[simp] theorem State.lineWrite_cfg (s : State) (L : Line) (v : Level) : (s.lineWrite L v).cfg = s.cfg := by cases L <;> rfl
@[simp] theorem State.lineWrite_fb (s : State) (L : Line) (v : Level) : (s.lineWrite L v).fb = s.fb := by cases L <;> rfl
@[simp] theorem State.lineWrite_trace (s : State) (L : Line) (v : Level) : (s.lineWrite L v).trace = s.trace ++ [L.event v] := by cases L <;> rfl
@[simp] theorem State.lineWrite_shown (s : State) (L : Line) (v : Level) : (s.lineWrite L v).shown = s.shown := by cases L <;> rfl
@[simp] theorem State.lineWrite_busy (s : State) (L : Line) (v : Level) : (s.lineWrite L v).busy = s.busy := by cases L <;> rfl
@[simp] theorem State.lineWrite_sp (s : State) (L : Line) (v : Level) : (s.lineWrite L v).sp = s.sp := by cases L <;> rfl
@[simp] theorem State.lineWrite_par (s : State) (L : Line) (v : Level) : (s.lineWrite L v).par = s.par := by cases L <;> rfl
@[simp] theorem State.lineWrite_host (s : State) (L : Line) (v : Level) : (s.lineWrite L v).host = s.host := by cases L <;> rfl
@[simp] theorem State.lineWrite_seq (s : State) (L : Line) (v : Level) : (s.lineWrite L v).seq = s.seq := by cases L <;> rfl
@[simp] theorem State.lineWrite_result (s : State) (L : Line) (v : Level) : (s.lineWrite L v).result = s.result := by cases L <;> rfl
@[simp] theorem State.lineWrite_draws (s : State) (L : Line) (v : Level) : (s.lineWrite L v).draws = s.draws := by cases L <;> rfl

/-- A hold never falls short of its bound (40_bus_transactions.md R122). -/
theorem holdTime_ge (bound draw : Nat) : bound ≤ holdTime bound draw := Nat.le_add_right _ _

/-- The register of a line after a line write. -/
theorem State.line_lineWrite (s : State) (L K : Line) (v : Level) :
    (s.lineWrite L v).line K = if L = K then v else s.line K := by
  cases L <;> cases K <;> rfl

end Sys2Proof.Machine
end

