-- ==== Sys2Proof/Laws/Memory.lean ====
section
/-! SUPPORT. The laws of the frame buffer: read after write, and the canonical form that every memory operation keeps. -/

namespace Sys2Proof.Machine

theorem Mem.lookup_insert_same (m : List Host.Cell) (a : Nat) (b : Byte) :
    Mem.lookup (Mem.insert m a b) a = some b := by
  induction m with
  | nil => simp [Mem.insert, Mem.lookup]
  | cons c m ih =>
    obtain ⟨k, v⟩ := c
    by_cases h : a < k
    · simp [Mem.insert, h, Mem.lookup]
    · by_cases h' : a = k
      · simp [Mem.insert, h', Mem.lookup]
      · simp [Mem.insert, h, h', Mem.lookup, ih, Ne.symm h']

theorem Mem.lookup_insert_other (m : List Host.Cell) (a x : Nat) (b : Byte) (hx : x ≠ a) :
    Mem.lookup (Mem.insert m a b) x = Mem.lookup m x := by
  induction m with
  | nil => simp [Mem.insert, Mem.lookup, Ne.symm hx]
  | cons c m ih =>
    obtain ⟨k, v⟩ := c
    by_cases h : a < k
    · simp [Mem.insert, h, Mem.lookup, Ne.symm hx]
    · by_cases h' : a = k
      · subst h'
        simp [Mem.insert, Mem.lookup, Ne.symm hx]
      · simp [Mem.insert, h, h', Mem.lookup, ih]

theorem Mem.lookup_erase_same (m : List Host.Cell) (a : Nat) : Mem.lookup (Mem.erase m a) a = none := by
  induction m with
  | nil => rfl
  | cons c m ih =>
    obtain ⟨k, v⟩ := c
    by_cases h : k = a
    · simpa [Mem.erase, h] using ih
    · have : (k != a) = true := by simp [h]
      simp only [Mem.erase, List.filter_cons, this, if_true, Mem.lookup, h, if_false]
      exact ih

theorem Mem.lookup_erase_other (m : List Host.Cell) (a x : Nat) (hx : x ≠ a) :
    Mem.lookup (Mem.erase m a) x = Mem.lookup m x := by
  induction m with
  | nil => rfl
  | cons c m ih =>
    obtain ⟨k, v⟩ := c
    by_cases h : k = a
    · subst h
      have : (k != k) = false := by simp
      simp only [Mem.erase, List.filter_cons, this, Mem.lookup, Ne.symm hx, if_false]
      exact ih
    · have : (k != a) = true := by simp [h]
      simp only [Mem.erase, List.filter_cons, this, if_true, Mem.lookup]
      split
      · rfl
      · exact ih

/-- A read after a write to the same address gives the value written. -/
theorem Mem.read_write_same (init : Nat → Byte) (m : List Host.Cell) (a : Nat) (b : Byte) :
    Mem.read init (Mem.write init m a b) a = b := by
  unfold Mem.read Mem.write
  split
  · simp [Mem.lookup_erase_same, *]
  · simp [Mem.lookup_insert_same]

/-- A write leaves every other address alone. -/
theorem Mem.read_write_other (init : Nat → Byte) (m : List Host.Cell) (a x : Nat) (b : Byte) (hx : x ≠ a) :
    Mem.read init (Mem.write init m a b) x = Mem.read init m x := by
  unfold Mem.read Mem.write
  split
  · rw [Mem.lookup_erase_other m a x hx]
  · rw [Mem.lookup_insert_other m a x b hx]

/-- An unlisted address reads as FB_INIT. -/
theorem Mem.read_nil (init : Nat → Byte) (a : Nat) : Mem.read init [] a = init a := rfl

theorem Mem.insert_all_gt (m : List Host.Cell) (n a : Nat) (b : Byte) (hn : n < a)
    (h : m.all (fun c => decide (n < c.1)) = true) :
    (Mem.insert m a b).all (fun c => decide (n < c.1)) = true := by
  induction m with
  | nil => simpa [Mem.insert] using hn
  | cons c m ih =>
    obtain ⟨k, v⟩ := c
    simp only [List.all_cons, Bool.and_eq_true, decide_eq_true_eq] at h
    unfold Mem.insert
    split
    · simp only [List.all_cons, Bool.and_eq_true, decide_eq_true_eq]
      exact ⟨hn, h.1, h.2⟩
    · split
      · simp only [List.all_cons, Bool.and_eq_true, decide_eq_true_eq]
        exact ⟨hn, h.2⟩
      · simp only [List.all_cons, Bool.and_eq_true, decide_eq_true_eq]
        exact ⟨h.1, ih h.2⟩

theorem Mem.wf_cons (init : Nat → Byte) (k : Nat) (v : Byte) (m : List Host.Cell) :
    Mem.wf init ((k, v) :: m) = true ↔
      k < Config.fbSize ∧ v ≠ init k ∧ m.all (fun c => decide (k < c.1)) = true ∧ Mem.wf init m = true := by
  simp [Mem.wf, and_assoc]

theorem Mem.wf_insert (init : Nat → Byte) (m : List Host.Cell) (a : Nat) (b : Byte)
    (ha : a < Config.fbSize) (hb : b ≠ init a) (h : Mem.wf init m = true) :
    Mem.wf init (Mem.insert m a b) = true := by
  induction m with
  | nil => simp [Mem.insert, Mem.wf, ha, hb]
  | cons c m ih =>
    obtain ⟨k, v⟩ := c
    obtain ⟨hk, hv, hgt, hm⟩ := (Mem.wf_cons init k v m).1 h
    unfold Mem.insert
    split
    · rename_i hlt
      refine (Mem.wf_cons init a b _).2 ⟨ha, hb, ?_, h⟩
      simp only [List.all_cons, Bool.and_eq_true, decide_eq_true_eq]
      refine ⟨hlt, ?_⟩
      simp only [List.all_eq_true, decide_eq_true_eq] at hgt ⊢
      exact fun c hc => Nat.lt_trans hlt (hgt c hc)
    · split
      · rename_i heq
        subst heq
        exact (Mem.wf_cons init a b _).2 ⟨ha, hb, hgt, hm⟩
      · rename_i h1 h2
        exact (Mem.wf_cons init k v _).2 ⟨hk, hv, Mem.insert_all_gt m k a b (by omega) hgt, ih hm⟩

theorem Mem.wf_erase (init : Nat → Byte) (m : List Host.Cell) (a : Nat) (h : Mem.wf init m = true) :
    Mem.wf init (Mem.erase m a) = true := by
  induction m with
  | nil => exact h
  | cons c m ih =>
    obtain ⟨k, v⟩ := c
    obtain ⟨hk, hv, hgt, hm⟩ := (Mem.wf_cons init k v m).1 h
    by_cases hka : k = a
    · have : (k != a) = false := by simp [hka]
      simpa only [Mem.erase, List.filter_cons, this, Bool.false_eq_true, if_false] using ih hm
    · have : (k != a) = true := by simp [hka]
      simp only [Mem.erase, List.filter_cons, this, if_true]
      refine (Mem.wf_cons init k v _).2 ⟨hk, hv, ?_, ih hm⟩
      simp only [List.all_eq_true, decide_eq_true_eq] at hgt ⊢
      exact fun c hc => hgt c (List.mem_filter.1 hc).1

/-- Every write inside the buffer keeps the canonical form. -/
theorem Mem.wf_write (init : Nat → Byte) (m : List Host.Cell) (a : Nat) (b : Byte)
    (ha : a < Config.fbSize) (h : Mem.wf init m = true) : Mem.wf init (Mem.write init m a b) = true := by
  unfold Mem.write
  split
  · exact Mem.wf_erase init m a h
  · rename_i hb
    exact Mem.wf_insert init m a b ha hb h

theorem Mem.lookup_none_of_gt (m : List Host.Cell) (a : Nat) (h : m.all (fun c => decide (a < c.1)) = true) :
    Mem.lookup m a = none := by
  induction m with
  | nil => rfl
  | cons c m ih =>
    obtain ⟨k, v⟩ := c
    simp only [List.all_cons, Bool.and_eq_true, decide_eq_true_eq] at h
    simp [Mem.lookup, Nat.ne_of_gt h.1, ih h.2]

/-- In canonical form, memories that read the same everywhere are equal data. -/
theorem Mem.ext_of_wf (init : Nat → Byte) (m n : List Host.Cell) (hm : Mem.wf init m = true)
    (hn : Mem.wf init n = true) (h : ∀ a, Mem.read init m a = Mem.read init n a) : m = n := by
  induction m generalizing n with
  | nil =>
    cases n with
    | nil => rfl
    | cons c n =>
      obtain ⟨k, v⟩ := c
      obtain ⟨_, hv, _, _⟩ := (Mem.wf_cons init k v n).1 hn
      have := h k
      simp [Mem.read, Mem.lookup] at this
      exact absurd this.symm hv
  | cons c m ih =>
    obtain ⟨k, v⟩ := c
    obtain ⟨_, hv, hgt, hm'⟩ := (Mem.wf_cons init k v m).1 hm
    cases n with
    | nil =>
      have := h k
      simp [Mem.read, Mem.lookup] at this
      exact absurd this hv
    | cons d n =>
      obtain ⟨j, w⟩ := d
      obtain ⟨_, hw, hgt', hn'⟩ := (Mem.wf_cons init j w n).1 hn
      have hkj : k = j := by
        rcases Nat.lt_trichotomy k j with hlt | heq | hlt
        · have hk := h k
          have : Mem.lookup n k = none := by
            refine Mem.lookup_none_of_gt n k ?_
            simp only [List.all_eq_true, decide_eq_true_eq] at hgt' ⊢
            exact fun c hc => Nat.lt_trans hlt (hgt' c hc)
          simp [Mem.read, Mem.lookup, this, Nat.ne_of_gt hlt] at hk
          exact absurd hk hv
        · exact heq
        · have hj := h j
          have : Mem.lookup m j = none := by
            refine Mem.lookup_none_of_gt m j ?_
            simp only [List.all_eq_true, decide_eq_true_eq] at hgt ⊢
            exact fun c hc => Nat.lt_trans hlt (hgt c hc)
          simp [Mem.read, Mem.lookup, this, Nat.ne_of_gt hlt] at hj
          exact absurd hj.symm hw
      subst hkj
      have hvw : v = w := by simpa [Mem.read, Mem.lookup] using h k
      subst hvw
      have hrest : m = n := by
        refine ih n hm' hn' (fun a => ?_)
        by_cases ha : k = a
        · subst ha
          simp [Mem.read, Mem.lookup_none_of_gt m k hgt, Mem.lookup_none_of_gt n k hgt']
        · simpa [Mem.read, Mem.lookup, ha] using h a
      rw [hrest]

/-! ## The same for a state -/

/-- The byte read after a put. -/
theorem State.fbRead_fbPut (s : State) (a x : Nat) (b : Byte) :
    (s.fbPut a b).fbRead x = if x = a then b else s.fbRead x := by
  unfold State.fbRead
  simp only [State.fbPut_par, State.fbPut_fb]
  split
  · rename_i h
    subst h
    exact Mem.read_write_same _ _ _ _
  · rename_i h
    exact Mem.read_write_other _ _ _ _ _ h

/-- A put inside the buffer keeps the canonical form. -/
theorem State.fbWf_fbPut (s : State) (a : Nat) (b : Byte) (ha : a < Config.fbSize) (h : s.fbWf = true) :
    (s.fbPut a b).fbWf = true := by
  unfold State.fbWf at *
  simpa using Mem.wf_write _ _ _ _ ha h

/-- The fields a byte read depends on. -/
theorem State.fbRead_congr (s t : State) (hp : t.par = s.par) (hf : t.fb = s.fb) (a : Nat) :
    t.fbRead a = s.fbRead a := by
  unfold State.fbRead
  rw [hp, hf]

/-- The same for the whole buffer. -/
theorem State.fbBytes_congr (s t : State) (hp : t.par = s.par) (hf : t.fb = s.fb) : t.fbBytes = s.fbBytes := by
  unfold State.fbBytes State.memRead
  exact List.map_congr_left (fun i _ => State.fbRead_congr s t hp hf _)

/-- FB_SIZE bytes, always. -/
theorem State.length_memRead (s : State) (a n : Nat) : (s.memRead a n).length = n := by
  simp [State.memRead]

theorem State.length_fbBytes (s : State) : s.fbBytes.length = Config.fbSize := s.length_memRead 0 Config.fbSize

/-- Byte `i` of a read. -/
theorem State.getElem?_memRead (s : State) (a n i : Nat) (h : i < n) :
    (s.memRead a n)[i]? = some (s.fbRead (a + i)) := by
  simp [State.memRead, h]

/-- The canonical form holds at power-on. -/
theorem State.reset_fbWf : State.reset.fbWf = true := rfl

end Sys2Proof.Machine
end

