-- ==== Sys2Proof/Laws/Ops.lean ====
section
/-! SUPPORT. One lemma for each shared operation that says everything it does, against the event lists of
41_reset_init.md R158 and 42_flush.md R178. -/

namespace Sys2Proof.Machine

/-- `SEND_COMMAND` in one record update (40_bus_transactions.md R124). -/
theorem State.sendCommand_eq (s : State) (c : Byte) :
    s.sendCommand c = s.onBus high low c (evCmd c) := by
  simp [State.sendCommand, State.lineWrite, State.tx, State.emit, State.onBus, evCmd, List.append_assoc]

/-- Sending a list of bytes changes the transmit register and the trace. -/
theorem State.txAll_eq (s : State) (bs : List Byte) :
    s.txAll bs = { s with txb := bs.getLastD s.txb, trace := s.trace ++ bs.map Event.tx } := by
  unfold State.txAll
  induction bs generalizing s with
  | nil => simp
  | cons b bs ih =>
    rw [List.foldl_cons, ih, List.getLastD_cons]
    simp only [State.tx_txb, State.tx_trace, List.map_cons, List.append_assoc, List.cons_append, List.nil_append]
    rfl

/-- `SEND_DATA` in one record update (40_bus_transactions.md R125). -/
theorem State.sendData_eq (s : State) (bs : List Byte) :
    s.sendData bs = s.onBus high high (bs.getLastD s.txb) (evData bs) := by
  simp [State.sendData, State.txAll_eq, State.lineWrite, State.emit, State.onBus, evData, List.append_assoc]

/-- Two stretches of bus activity, one after the other. -/
theorem State.onBus_onBus (s : State) (c d c' d' : Level) (x x' : Byte) (es es' : List Event) :
    (s.onBus c d x es).onBus c' d' x' es' = s.onBus c' d' x' (es ++ es') := by
  simp [State.onBus, List.append_assoc]

@[simp] theorem State.onBus_par (s : State) (c d : Level) (x : Byte) (es : List Event) :
    (s.onBus c d x es).par = s.par := rfl
@[simp] theorem State.onBus_fb (s : State) (c d : Level) (x : Byte) (es : List Event) :
    (s.onBus c d x es).fb = s.fb := rfl
@[simp] theorem State.onBus_life (s : State) (c d : Level) (x : Byte) (es : List Event) :
    (s.onBus c d x es).life = s.life := rfl
@[simp] theorem State.onBus_txb (s : State) (c d : Level) (x : Byte) (es : List Event) :
    (s.onBus c d x es).txb = x := rfl
@[simp] theorem State.onBus_trace (s : State) (c d : Level) (x : Byte) (es : List Event) :
    (s.onBus c d x es).trace = s.trace ++ es := rfl

/-- One data transaction for each byte (40_bus_transactions.md R128, `per_byte`). -/
theorem State.sendEach_eq (s : State) (d : Byte) (ds : List Byte) :
    (d :: ds).foldl (fun t x => t.sendData [x]) s =
      s.onBus high high ((d :: ds).getLastD s.txb) ((d :: ds).flatMap (fun x => evData [x])) := by
  induction ds generalizing s d with
  | nil => simp [State.sendData_eq]
  | cons e ds ih =>
    rw [List.foldl_cons, ih, State.sendData_eq, State.onBus_onBus]
    simp only [State.onBus_txb, List.getLastD_cons, List.getLastD_nil, List.flatMap_cons]

/-- `SendArgs` in one record update; nothing at all for no data (40_bus_transactions.md R128). -/
theorem State.sendArgs_eq (s : State) (ds : List Byte) :
    s.sendArgs ds =
      if ds = [] then s else s.onBus high high (ds.getLastD s.txb) (evArgs s.par.argFraming ds) := by
  unfold State.sendArgs
  split
  · rfl
  · rename_i h
    cases hf : s.par.argFraming with
    | perEntry => simp [evArgs, h, State.sendData_eq]
    | perByte =>
      cases ds with
      | nil => exact absurd rfl h
      | cons d ds => simpa [evArgs] using s.sendEach_eq d ds

/-- `SendCmdWithArgs` in one record update (40_bus_transactions.md R127, R133). -/
theorem State.sendCmdWithArgs_eq (s : State) (c : Byte) (ds : List Byte) :
    s.sendCmdWithArgs c ds =
      s.afterEntry c ds := by
  unfold State.sendCmdWithArgs State.afterEntry
  rw [State.sendArgs_eq, State.sendCommand_eq]
  unfold dcAfter evEntry
  split
  · rename_i h
    subst h
    simp [evArgs]
  · rw [State.onBus_onBus]
    simp

/-- `RESET` in one record update (41_reset_init.md R142). -/
theorem State.resetPanel_eq (s : State) :
    s.resetPanel =
      { s with
        rst := high, life := .resetting, shown := .undefined, draws := s.draws + 3
        trace := s.trace ++ s.resetEvents } := by
  simp [State.resetPanel, State.lineWrite, State.hold, State.emit, State.resetEvents, evReset, List.append_assoc]

/-- The table phase: the events of every entry in order, and the bus as the last entry leaves it
(41_reset_init.md R150, R158). -/
theorem State.sendTable_eq (s : State) (t : InitTable) (e : InitEntry) :
    s.sendTable (t ++ [e]) =
      s.onBus high (dcAfter e.2) (e.2.getLastD e.1) (evTable s.par.argFraming (t ++ [e])) := by
  unfold State.sendTable
  induction t generalizing s with
  | nil => simp [State.sendCmdWithArgs_eq, State.afterEntry, evTable]
  | cons a t ih =>
    rw [List.cons_append, List.foldl_cons, ih, State.sendCmdWithArgs_eq, State.afterEntry, State.onBus_onBus]
    simp [evTable]

/-- The table phase of an empty table sends nothing (95_test_vectors.md V41-5). -/
theorem State.sendTable_nil (s : State) : s.sendTable [] = s := rfl

/-- `INITIALIZE` in terms of its two phases (41_reset_init.md R150). -/
theorem State.initializePanel_eq (s : State) :
    s.initializePanel =
      { State.sendTable
          { s with
            rst := high, life := .initializing, shown := .undefined, draws := s.draws + 3
            trace := s.trace ++ s.resetEvents } s.par.initTable with
        life := .ready, shown := .undefined } := by
  simp [State.initializePanel, State.resetPanel_eq]

/-- `FLUSH` in one record update (42_flush.md R174, R178). -/
theorem State.flushNow_eq (s : State) :
    s.flushNow =
      { s.onBus high high (s.fbRead (Config.fbSize - 1)) s.flushEvents with shown := s.promise s.fbBytes } := by
  have hw : s.columnWindow ≠ [] := by simp [State.columnWindow, win]
  have hlast : ∀ x, s.fbBytes.getLastD x = s.fbRead (Config.fbSize - 1) := by
    intro x
    have h : s.fbBytes ≠ [] := List.ne_nil_of_length_pos (by rw [State.length_fbBytes]; decide)
    rw [List.getLastD_eq_getLast?, List.getLast?_eq_getElem?, State.length_fbBytes, State.fbBytes,
      State.getElem?_memRead _ _ _ _ (by decide)]
    simp
  simp only [State.flushNow, State.sendCmdWithArgs_eq, State.afterEntry, State.sendCommand_eq, State.sendData_eq,
    State.onBus_onBus, State.onBus_par, hlast, State.onBus_txb, State.flushEvents, evFlush]
  rfl

/-- The one-byte write of FB_WRITE (43_buffer_access.md R191). -/
theorem State.memWrite_one (s : State) (a : Nat) (b : Byte) : s.memWrite a [b] = s.fbPut a b := rfl

/-- A step that answers a next state through the gate: no operation in progress, a driver exists, and the rest answered
it (60_exceptions.md R203, R206). -/
theorem State.gate_next {s t : State} {k : Host.Outcome State Fault Refusal} (h : s.gate k = .next t) :
    s.busy = false ∧ s.life ≠ .unpowered ∧ k = .next t := by
  unfold State.gate at h
  split at h
  · cases h
  · split at h
    · cases h
    · rename_i hb hl
      exact ⟨by simpa using hb, hl, h⟩

/-- The gate is open. -/
theorem State.gate_open {s : State} {k : Host.Outcome State Fault Refusal} (hb : s.busy = false)
    (hl : s.life ≠ .unpowered) : s.gate k = k := by
  simp [State.gate, hb, hl]

/-- The gate answers no fault. -/
theorem State.gate_refused_busy {s : State} {k : Host.Outcome State Fault Refusal} (hb : s.busy = true) :
    s.gate k = .refused .busy := by
  simp [State.gate, hb]

theorem State.gate_refused_unpowered {s : State} {k : Host.Outcome State Fault Refusal} (hb : s.busy = false)
    (hl : s.life = .unpowered) : s.gate k = .refused .notConstructed := by
  simp [State.gate, hb, hl]

end Sys2Proof.Machine
end

