-- ==== Sys2Proof/Laws/Exec.lean ====
section
/-! SUPPORT. What exec can do, said once: the verdict on a request and, where it is admitted, the one next state. -/

namespace Sys2Proof.Machine

/-- The common gate (60_exceptions.md R203, R206). -/
def gateVerdict (s : State) : Option Refusal :=
  if s.busy = true then some .busy else if s.life = .unpowered then some .notConstructed else none

/-- Why a request is refused, or `none` where it is admitted, in the order of 60_exceptions.md R206. -/
def verdict (i : Instr) (s : State) : Option Refusal :=
  match i with
  | .construct =>
    if s.busy = true then some .busy else if s.life ≠ .unpowered then some .alreadyConstructed else none
  | .fbWrite a _ =>
    if s.busy = true ∧ s.par.concurrentFbWrite = false then some .busy
    else if s.life = .unpowered then some .notConstructed
    else if addressExists a = false then some .badAddress else none
  | .fbRead a => (gateVerdict s).or (if addressExists a = false then some .badAddress else none)
  | .sendCommand _ => (gateVerdict s).or (if s.par.rawBusAccess = false then some .rawNotAdmitted else none)
  | .sendData bs =>
    (gateVerdict s).or
      (if s.par.rawBusAccess = false then some .rawNotAdmitted
       else if bs = [] then some .emptyPayload else none)
  | .wireData bs => (gateVerdict s).or (if bs = [] then some .emptyPayload else none)
  | _ => gateVerdict s

/-- The next state of an admitted request. -/
def effect (i : Instr) (s : State) : State :=
  match i with
  | .construct => s.constructDriver
  | .reset => s.resetPanel
  | .initPanel => s.initializePanel
  | .flush => s.flushOp
  | .showFrame => s.flushOp
  | .fbWrite a b => s.fbPut a.toNat b
  | .fbRead a => { s with result := .byte (s.fbRead a.toNat) }
  | .blId => { s with result := .ident s.cfg.blId }
  | .sendCommand c => (s.sendCommand c).rawUse
  | .sendData bs => (s.sendData bs).rawUse
  | .wireCommand c => s.sendCommand c
  | .wireData bs => s.sendData bs
  | .cmdCaset => s.sendCmdWithArgs (s.cmdByte .caset) s.columnWindow
  | .cmdRaset => s.sendCmdWithArgs (s.cmdByte .raset) s.rowWindow
  | .cmdRamwr => s.sendCommand (s.cmdByte .ramwr)
  | .cmdMadctl ds => s.sendCmdWithArgs (s.cmdByte .madctl) ds
  | .cmdColmod ds => s.sendCmdWithArgs (s.cmdByte .colmod) ds
  | .cmdPorch ds => s.sendCmdWithArgs (s.cmdByte .porch) ds
  | .cmdGammaPos ds => s.sendCmdWithArgs (s.cmdByte .gammaPos) ds
  | .cmdGammaNeg ds => s.sendCmdWithArgs (s.cmdByte .gammaNeg) ds
  | .cmdPixaddrMode => s.sendCommand (s.cmdByte .pixaddrMode)
  | .cmdSleepOut => s.sendCommand (s.cmdByte .sleepOut)
  | .cmdDisplayOn => s.sendCommand (s.cmdByte .displayOn)
  | .initEntry c ds => s.sendCmdWithArgs c ds

/-- The gate as a verdict. -/
theorem State.gate_eq (s : State) (k : Host.Outcome State Fault Refusal) :
    s.gate k = match gateVerdict s with
      | some r => .refused r
      | none => k := by
  unfold State.gate gateVerdict
  split
  · rfl
  · split <;> rfl

/-- exec is its verdict and its effect. -/
theorem exec_eq (i : Instr) (s : State) :
    exec i s = match verdict i s with
      | some r => .refused r
      | none => .next (effect i s) := by
  cases i with
  | construct =>
    simp only [exec, execConstruct, verdict, effect]
    split
    · rfl
    · split <;> rfl
  | fbWrite a b =>
    simp only [exec, execFbWrite, verdict, effect]
    split
    · rfl
    · split
      · rfl
      · split <;> rfl
  | fbRead a =>
    simp only [exec, execFbRead, verdict, effect, State.gate_eq]
    cases gateVerdict s with
    | none => by_cases h : addressExists a = false <;> simp [h]
    | some r => rfl
  | sendCommand c =>
    simp only [exec, execSendCommand, verdict, effect, State.gate_eq]
    cases gateVerdict s with
    | none => by_cases h : s.par.rawBusAccess = false <;> simp [h]
    | some r => rfl
  | sendData bs =>
    simp only [exec, execSendData, verdict, effect, State.gate_eq]
    cases gateVerdict s with
    | none =>
      by_cases h : s.par.rawBusAccess = false
      · simp [h]
      · by_cases hb : bs = [] <;> simp [h, hb]
    | some r => rfl
  | wireData bs =>
    simp only [exec, execWireData, verdict, effect, State.gate_eq]
    cases gateVerdict s with
    | none => by_cases hb : bs = [] <;> simp [hb]
    | some r => rfl
  | _ => exact State.gate_eq s _

/-- A request's verdict is the first refusal of 60_exceptions.md R203 whose condition holds, in the order of R206. -/
theorem verdict_eq_head (i : Instr) (s : State) : verdict i s = (refusalsOf i s).head? := by
  cases i with
  | construct =>
    simp only [verdict, refusalsOf, isFbWrite, isRaw, fbAddress, isEmptyData]
    by_cases h1 : s.busy = true <;> by_cases h2 : s.life = .unpowered <;> simp [h1, h2]
  | fbWrite a b =>
    simp only [verdict, refusalsOf, isFbWrite, isRaw, fbAddress, isEmptyData, addressExists, Config.fbSize]
    by_cases h1 : s.busy = true <;> by_cases h2 : s.life = .unpowered <;>
      by_cases h3 : s.par.concurrentFbWrite = false <;> rcases Nat.lt_or_ge a.toNat 64800 with h4 | h4 <;>
        simp [h1, h2, h3, h4, Nat.not_le.2, Nat.not_lt.2]
  | fbRead a =>
    simp only [verdict, gateVerdict, refusalsOf, isFbWrite, isRaw, fbAddress, isEmptyData, addressExists, Config.fbSize]
    by_cases h1 : s.busy = true <;> by_cases h2 : s.life = .unpowered <;>
      rcases Nat.lt_or_ge a.toNat 64800 with h4 | h4 <;> simp [h1, h2, h4, Nat.not_le.2, Nat.not_lt.2]
  | sendData bs =>
    simp only [verdict, gateVerdict, refusalsOf, isFbWrite, isRaw, fbAddress, isEmptyData]
    by_cases h1 : s.busy = true <;> by_cases h2 : s.life = .unpowered <;>
      by_cases h3 : s.par.rawBusAccess = false <;> by_cases h4 : bs = [] <;> simp [h1, h2, h3, h4]
  | sendCommand c =>
    simp only [verdict, gateVerdict, refusalsOf, isFbWrite, isRaw, fbAddress, isEmptyData]
    by_cases h1 : s.busy = true <;> by_cases h2 : s.life = .unpowered <;>
      by_cases h3 : s.par.rawBusAccess = false <;> simp [h1, h2, h3]
  | wireData bs =>
    simp only [verdict, gateVerdict, refusalsOf, isFbWrite, isRaw, fbAddress, isEmptyData]
    by_cases h1 : s.busy = true <;> by_cases h2 : s.life = .unpowered <;> by_cases h4 : bs = [] <;> simp [h1, h2, h4]
  | _ =>
    simp only [verdict, gateVerdict, refusalsOf, isFbWrite, isRaw, fbAddress, isEmptyData]
    by_cases h1 : s.busy = true <;> by_cases h2 : s.life = .unpowered <;> simp [h1, h2]

/-- The inversion of exec: a next state is the effect of an admitted request. -/
theorem exec_next {i : Instr} {s t : State} (h : exec i s = .next t) : verdict i s = none ∧ t = effect i s := by
  rw [exec_eq] at h
  cases hv : verdict i s with
  | none =>
    rw [hv] at h
    simp only [Host.Outcome.next.injEq] at h
    exact ⟨rfl, h.symm⟩
  | some r => simp [hv] at h

/-- An admitted request has its effect. -/
theorem exec_of_verdict {i : Instr} {s : State} (h : verdict i s = none) : exec i s = .next (effect i s) := by
  rw [exec_eq, h]

/-- The inversion of step: nothing, one event of a flush, or one instruction. -/
theorem step_next {s t : State} (h : step s = .next t) :
    (s.nextMove = .idle ∧ t = s) ∨ (∃ u, s.nextMove = .event u ∧ t = u.tick) ∨
      ∃ i u, s.nextMove = .run i u ∧ exec i u = .next t := by
  unfold step at h
  cases hm : s.nextMove with
  | idle =>
    rw [hm] at h
    simp only [Host.Outcome.next.injEq] at h
    exact .inl ⟨rfl, h.symm⟩
  | event u =>
    rw [hm] at h
    simp only [Host.Outcome.next.injEq] at h
    exact .inr (.inl ⟨u, rfl, h.symm⟩)
  | run i u =>
    rw [hm] at h
    exact .inr (.inr ⟨i, u, rfl, h⟩)
  | refuse r => simp [hm] at h

/-- A run whose first instruction answers a next state goes on from it. -/
theorem runAll_cons {i : Instr} {is : List Instr} {s t : State} (h : exec i s = .next t) :
    runAll (i :: is) s = runAll is t := by
  rw [runAll, h]

/-- A run that answers a next state has an admitted first instruction. -/
theorem runAll_next {i : Instr} {is : List Instr} {s u : State} (h : runAll (i :: is) s = .next u) :
    ∃ t, exec i s = .next t ∧ runAll is t = .next u := by
  rw [runAll] at h
  split at h
  · exact ⟨_, by assumption, h⟩
  · cases h
  · cases h

/-! ## Shapes and frames -/

/-- The gate is open for a constructed machine with no operation in progress. -/
theorem gateVerdict_none {s : State} (hb : s.busy = false) (hl : s.life ≠ .unpowered) : gateVerdict s = none := by
  simp [gateVerdict, hb, hl]

/-- The table phase touches the bus and the trace only. -/
theorem State.sendTable_shape (s : State) (t : InitTable) :
    ∃ c d x, s.sendTable t = s.onBus c d x (evTable s.par.argFraming t) := by
  induction t using List.reverseRecOn with
  | nil => exact ⟨s.cs, s.dc, s.txb, by simp [State.sendTable_nil, State.onBus, evTable]⟩
  | append_singleton t e _ => exact ⟨_, _, _, s.sendTable_eq t e⟩

/-- What `shapedTable` answers satisfies WF_INIT (41_reset_init.md R146). -/
theorem wfInit_shapedTable {b : CmdBytes} {n : Nat} (h : wfInit b n (leastTable b n) = true) (t : InitTable) :
    wfInit b n (shapedTable b n t) = true := by
  unfold shapedTable
  split
  · assumption
  · exact h

/-- The table at power-on satisfies WF_INIT (00_scope.md R10). -/
theorem State.reset_tableWf : State.reset.tableWf = true := wfInit_shapedTable (by decide) Config.initTable

/-- A well-formed table ends with its three bare commands (41_reset_init.md R149). -/
theorem wfInit_last_three {b : CmdBytes} {n : Nat} {t : InitTable} (h : wfInit b n t = true) :
    ∃ u, t = u ++ [(b.pixaddrMode, []), (b.sleepOut, []), (b.displayOn, [])] := by
  unfold wfInit at h
  simp only [Bool.and_eq_true, decide_eq_true_eq] at h
  obtain ⟨⟨⟨⟨⟨⟨_, h2⟩, _⟩, _⟩, _⟩, _⟩, _⟩ := h
  exact ⟨t.take (t.length - 3), by rw [bareEnding] at h2; rw [← h2, List.take_append_drop]⟩

/-- The table phase of a well-formed table. -/
theorem State.sendTable_wf {s : State} (h : s.tableWf = true) :
    s.sendTable s.par.initTable = s.onBus high low s.par.cmd.displayOn (evTable s.par.argFraming s.par.initTable) := by
  obtain ⟨u, hu⟩ := wfInit_last_three h
  have : s.par.initTable =
      (u ++ [(s.par.cmd.pixaddrMode, []), (s.par.cmd.sleepOut, [])]) ++ [(s.par.cmd.displayOn, [])] := by
    rw [hu]; simp
  rw [this, State.sendTable_eq]
  rfl

theorem State.initializePanel_trace (s : State) : s.initializePanel.trace = s.trace ++ s.initEvents := by
  rw [State.initializePanel_eq]
  obtain ⟨c, d, x, h⟩ := State.sendTable_shape
    { s with
      rst := high, life := .initializing, shown := .undefined, draws := s.draws + 3
      trace := s.trace ++ s.resetEvents } s.par.initTable
  rw [h]
  simp only [State.onBus, State.initEvents, List.append_assoc]

/-- `INITIALIZE` as one record update: everything it can do (41_reset_init.md R150). -/
theorem State.initializePanel_shape (s : State) :
    ∃ c d x, s.initializePanel =
      { s with
        cs := c, dc := d, txb := x, rst := high, life := .ready, shown := .undefined, draws := s.draws + 3
        trace := s.trace ++ s.initEvents } := by
  rw [State.initializePanel_eq]
  obtain ⟨c, d, x, h⟩ := State.sendTable_shape
    { s with
      rst := high, life := .initializing, shown := .undefined, draws := s.draws + 3
      trace := s.trace ++ s.resetEvents } s.par.initTable
  rw [h]
  exact ⟨c, d, x, by simp only [State.onBus, State.initEvents, List.append_assoc]⟩

/-- `CONSTRUCT` as one record update: everything it can do (41_reset_init.md R155). -/
theorem State.constructDriver_shape (s : State) :
    ∃ c d x, s.constructDriver =
      { s with
        cfg := s.par.construction, fb := [], cs := c, dc := d, txb := x, rst := high, life := .ready
        shown := .undefined, draws := s.draws + 3, trace := s.initEvents } := by
  obtain ⟨c, d, x, h⟩ := State.initializePanel_shape { s with cfg := s.par.construction, fb := [], trace := [] }
  exact ⟨c, d, x, by rw [State.constructDriver, h]; simp only [List.nil_append]; rfl⟩

theorem addressExists_true {a : Half} (h : a.toNat < 64800) : addressExists a = true := by
  simp [addressExists, Config.fbSize, h]

theorem addressExists_false {a : Half} (h : 64800 ≤ a.toNat) : addressExists a = false :=
  decide_eq_false (Nat.not_lt.2 h)

/-- Two states that differ in the buffer only and read alike are one. -/
theorem State.fb_ext {s t u : State} (h1 : t = { s with fb := t.fb }) (h2 : u = { s with fb := u.fb })
    (w1 : t.fbWf = true) (w2 : u.fbWf = true) (h : ∀ a, t.fbRead a = u.fbRead a) : t = u := by
  have hp1 : t.par = s.par := by rw [h1]
  have hp2 : u.par = s.par := by rw [h2]
  have : t.fb = u.fb := by
    apply Mem.ext_of_wf (Params.fbInitAt s.par)
    · simpa [State.fbWf, hp1] using w1
    · simpa [State.fbWf, hp2] using w2
    · intro a; simpa [State.fbRead, hp1, hp2] using h a
  rw [h1, h2, this]

/-- No instruction changes the parameters or the two ports. -/
theorem effect_par (i s) : (effect i s).par = s.par ∧ (effect i s).host = s.host ∧ (effect i s).seq = s.seq := by
  cases i
  case construct => obtain ⟨c, d, x, h⟩ := State.constructDriver_shape s; simp only [effect, h, and_self]
  case initPanel => obtain ⟨c, d, x, h⟩ := State.initializePanel_shape s; simp only [effect, h, and_self]
  case flush => simp only [effect, State.flushOp, State.flushNow_eq, State.flushStart]; split <;> exact ⟨rfl, rfl, rfl⟩
  case showFrame => simp only [effect, State.flushOp, State.flushNow_eq, State.flushStart]; split <;> exact ⟨rfl, rfl, rfl⟩
  all_goals
    simp only [effect, State.sendCommand_eq, State.sendData_eq, State.sendCmdWithArgs_eq, State.afterEntry,
        State.onBus, State.rawUse, State.resetPanel_eq, State.fbPut, and_self]

theorem effect_fb (i s) (hw : writesFb i = false) : (effect i s).fb = s.fb := by
  cases i
  case construct => cases hw
  case fbWrite => cases hw
  case initPanel => obtain ⟨c, d, x, h⟩ := State.initializePanel_shape s; simp only [effect, h]
  case flush => simp only [effect, State.flushOp, State.flushNow_eq, State.flushStart]; split <;> rfl
  case showFrame => simp only [effect, State.flushOp, State.flushNow_eq, State.flushStart]; split <;> rfl
  all_goals
    simp only [effect, State.sendCommand_eq, State.sendData_eq, State.sendCmdWithArgs_eq, State.afterEntry,
        State.onBus, State.rawUse, State.resetPanel_eq]

/-- Choosing the next move consumes words and draws, and nothing else. -/
theorem nextMove_frame {s u : State} (h : s.nextMove = .event u ∨ ∃ i, s.nextMove = .run i u) :
    ∃ hs sq d, u = { s with host := hs, seq := sq, draws := d } := by
  have key : ∀ m, s.nextMove = m → (m = .event u ∨ ∃ i, m = .run i u) →
      ∃ hs sq d, u = { s with host := hs, seq := sq, draws := d } := by
    intro m hm hmu
    unfold State.nextMove State.moveInFlush State.moveIdle at hm
    repeat' split at hm
    all_goals subst hm
    all_goals
      rcases hmu with h | ⟨i, h⟩
      · first | (cases h; done) | (cases h; exact ⟨_, _, _, rfl⟩)
      · first | (cases h; done) | (cases h; exact ⟨_, _, _, rfl⟩)
  exact key _ rfl h

theorem State.fbWf_congr {s t : State} (hp : t.par = s.par) (hf : t.fb = s.fb) : t.fbWf = s.fbWf := by
  unfold State.fbWf; rw [hp, hf]

end Sys2Proof.Machine
end

