-- ==== Sys2Proof/Laws/Wire.lean ====
section
/-! SUPPORT. Reading traces back: frames, bytes, levels and the discipline over appended event lists. -/

namespace Sys2Proof.Machine

theorem frameScan_append (t u : List Event) : frameScan (t ++ u) = u.foldl FrameScan.next (frameScan t) := by
  simp [frameScan, List.foldl_append]

/-- `TX` events inside an open frame extend it. -/
theorem foldl_next_tx (k : FrameScan) (f : Frame) (bs : List Byte) (h : k.cur = some f) :
    (bs.map Event.tx).foldl FrameScan.next k = { k with cur := some ⟨f.dc, f.bytes ++ bs⟩ } := by
  induction bs generalizing k f with
  | nil => simp [← h]
  | cons b bs ih =>
    have hk : FrameScan.next k (.tx b) = { k with cur := some ⟨f.dc, f.bytes ++ [b]⟩ } := by
      simp [FrameScan.next, h]
    rw [List.map_cons, List.foldl_cons, hk, ih _ ⟨f.dc, f.bytes ++ [b]⟩ rfl]
    simp

/-- A data transaction read from a state with no frame open (40_bus_transactions.md R132). -/
theorem foldl_next_evData (k : FrameScan) (bs : List Byte) (h : k.cur = none) :
    (evData bs).foldl FrameScan.next k = ⟨k.out ++ [⟨some high, bs⟩], some high, none⟩ := by
  have h1 : ([.cs high, .dc high, .cs low] : List Event).foldl FrameScan.next k =
      { k with dc := some high, cur := some ⟨some high, []⟩ } := by
    simp [FrameScan.next, h]
  rw [evData, List.foldl_append, List.foldl_append, h1, foldl_next_tx _ ⟨some high, []⟩ bs rfl]
  simp [FrameScan.next]

/-- A command transaction read from a state with no frame open (40_bus_transactions.md R132). -/
theorem foldl_next_evCmd (k : FrameScan) (c : Byte) (h : k.cur = none) :
    (evCmd c).foldl FrameScan.next k = ⟨k.out ++ [⟨some low, [c]⟩], some low, none⟩ := by
  simp [evCmd, FrameScan.next, h]

/-- The frames of the data of a command. -/
def argFrames (f : ArgFraming) (ds : List Byte) : List Frame :=
  if ds = [] then []
  else match f with
    | .perEntry => [⟨some high, ds⟩]
    | .perByte => ds.map (fun d => ⟨some high, [d]⟩)

theorem foldl_next_each (k : FrameScan) (ds : List Byte) (h : k.cur = none) (hd : k.dc = some high) :
    (ds.flatMap (fun d => evData [d])).foldl FrameScan.next k =
      ⟨k.out ++ ds.map (fun d => ⟨some high, [d]⟩), some high, none⟩ := by
  induction ds generalizing k with
  | nil =>
    obtain ⟨o, d, c⟩ := k
    simp_all
  | cons d ds ih =>
    rw [List.flatMap_cons, List.foldl_append, foldl_next_evData k [d] h, ih _ rfl rfl]
    simp

/-- A table entry read from a state with no frame open. -/
theorem foldl_next_evEntry (k : FrameScan) (f : ArgFraming) (c : Byte) (ds : List Byte) (h : k.cur = none) :
    (evEntry f c ds).foldl FrameScan.next k =
      ⟨k.out ++ ⟨some low, [c]⟩ :: argFrames f ds, some (dcAfter ds), none⟩ := by
  rw [evEntry, List.foldl_append, foldl_next_evCmd k c h]
  unfold evArgs argFrames dcAfter
  split
  · simp
  · rename_i hne
    cases f with
    | perEntry => simp [foldl_next_evData]
    | perByte =>
      obtain ⟨d, ds, rfl⟩ := List.exists_cons_of_ne_nil hne
      simp only [List.flatMap_cons, List.foldl_append]
      rw [foldl_next_evData _ [d] rfl, foldl_next_each _ ds rfl rfl]
      simp

/-- The frames of a table's events. -/
def tableFrames (f : ArgFraming) (t : InitTable) : List Frame :=
  t.flatMap (fun e => ⟨some low, [e.1]⟩ :: argFrames f e.2)

theorem foldl_next_evTable (k : FrameScan) (f : ArgFraming) (t : InitTable) (h : k.cur = none) :
    ((evTable f t).foldl FrameScan.next k).out = k.out ++ tableFrames f t ∧
      ((evTable f t).foldl FrameScan.next k).cur = none := by
  induction t generalizing k with
  | nil => simp [evTable, tableFrames, h]
  | cons e t ih =>
    have : evTable f (e :: t) = evEntry f e.1 e.2 ++ evTable f t := by simp [evTable]
    rw [this, List.foldl_append, foldl_next_evEntry k f e.1 e.2 h]
    obtain ⟨h1, h2⟩ := ih ⟨k.out ++ ⟨some low, [e.1]⟩ :: argFrames f e.2, some (dcAfter e.2), none⟩ rfl
    exact ⟨by rw [h1]; simp [tableFrames], h2⟩

theorem foldl_next_evReset (k : FrameScan) (d1 d2 d3 : Nat) : (evReset d1 d2 d3).foldl FrameScan.next k = k := rfl

/-! ## Bytes and levels -/

theorem txBytes_append (t u : List Event) : txBytes (t ++ u) = txBytes t ++ txBytes u :=
  List.filterMap_append

theorem txBytes_tx (bs : List Byte) : txBytes (bs.map Event.tx) = bs := by
  induction bs with
  | nil => rfl
  | cons b bs ih =>
    have : txBytes (Event.tx b :: bs.map Event.tx) = b :: txBytes (bs.map Event.tx) := rfl
    rw [List.map_cons, this, ih]

theorem txBytes_evData (bs : List Byte) : txBytes (evData bs) = bs := by
  have h1 : txBytes [.cs high, .dc high, .cs low] = [] := rfl
  have h2 : txBytes [.cs high] = [] := rfl
  simp only [evData, txBytes_append, txBytes_tx, h1, h2, List.nil_append, List.append_nil]

theorem txBytes_evCmd (c : Byte) : txBytes (evCmd c) = [c] := rfl

theorem txBytes_evArgs (f : ArgFraming) (ds : List Byte) : txBytes (evArgs f ds) = ds := by
  unfold evArgs
  split
  · simp [*, txBytes]
  · cases f with
    | perEntry => exact txBytes_evData ds
    | perByte =>
      clear * -
      induction ds with
      | nil => rfl
      | cons d ds ih => simp only [List.flatMap_cons, txBytes_append, txBytes_evData] at *; simp [ih]

theorem txBytes_evEntry (f : ArgFraming) (c : Byte) (ds : List Byte) : txBytes (evEntry f c ds) = c :: ds := by
  simp [evEntry, txBytes_append, txBytes_evCmd, txBytes_evArgs]

theorem lineWrites_append (L : Line) (t u : List Event) : lineWrites L (t ++ u) = lineWrites L t ++ lineWrites L u :=
  List.filterMap_append

theorem lastLevel_append (L : Line) (t u : List Event) :
    lastLevel L (t ++ u) = (lastLevel L u).or (lastLevel L t) := by
  simp [lastLevel, lineWrites_append, List.getLast?_append]

theorem discipline_append (cs : Option Level) (t u : List Event) :
    discipline cs (t ++ u) = (discipline cs t).bind (fun c => discipline c u) := by
  induction t generalizing cs with
  | nil => rfl
  | cons e t ih =>
    simp only [List.cons_append, discipline]
    cases disciplineStep cs e with
    | none => rfl
    | some c => exact ih c

theorem discipline_tx (bs : List Byte) : discipline (some low) (bs.map Event.tx) = some (some low) := by
  induction bs with
  | nil => rfl
  | cons b bs ih => simpa [discipline, disciplineStep] using ih

theorem discipline_evData (cs : Option Level) (bs : List Byte) : discipline cs (evData bs) = some (some high) := by
  have h1 : discipline cs [.cs high, .dc high, .cs low] = some (some low) := rfl
  rw [evData, discipline_append, discipline_append, h1]
  simp [discipline_tx, discipline, disciplineStep]

theorem discipline_evCmd (cs : Option Level) (c : Byte) : discipline cs (evCmd c) = some (some high) := rfl

theorem discipline_evArgs (f : ArgFraming) (ds : List Byte) :
    discipline (some high) (evArgs f ds) = some (some high) := by
  unfold evArgs
  split
  · rfl
  · cases f with
    | perEntry => exact discipline_evData _ ds
    | perByte =>
      clear * -
      induction ds with
      | nil => rfl
      | cons d ds ih =>
        simp only [List.flatMap_cons, discipline_append, discipline_evData, Option.bind_some] at *
        exact ih

theorem discipline_evEntry (cs : Option Level) (f : ArgFraming) (c : Byte) (ds : List Byte) :
    discipline cs (evEntry f c ds) = some (some high) := by
  simp [evEntry, discipline_append, discipline_evCmd, discipline_evArgs]

/-! ## Counting and levels -/

theorem assertions_append (t u : List Event) : assertions (t ++ u) = assertions t + assertions u := by
  simp [assertions]

theorem assertions_tx (bs : List Byte) : assertions (bs.map Event.tx) = 0 := by
  simp [assertions, List.countP_eq_zero]

/-- One chip-select assertion in a data transaction (40_bus_transactions.md R125). -/
theorem assertions_evData (bs : List Byte) : assertions (evData bs) = 1 := by
  simp only [evData, assertions_append, assertions_tx]; rfl

theorem assertions_evCmd (c) : assertions (evCmd c) = 1 := rfl

theorem lineWrites_tx (L : Line) (bs : List Byte) : lineWrites L (bs.map Event.tx) = [] := by
  cases L <;> simp [lineWrites, Event.levelOn]

theorem dcAtTx_tx (v : Option Level) (bs : List Byte) (t : List Event) :
    dcAtTx v (bs.map Event.tx ++ t) = bs.map (fun _ => v) ++ dcAtTx v t := by
  induction bs with
  | nil => rfl
  | cons b bs ih => simp [dcAtTx, ih]

theorem dcAtTx_evData (v : Option Level) (bs : List Byte) (t : List Event) :
    dcAtTx v (evData bs ++ t) = bs.map (fun _ => some high) ++ dcAtTx (some high) t := by
  have : evData bs ++ t = .cs high :: .dc high :: .cs low :: (bs.map Event.tx ++ (.cs high :: t)) := by
    simp [evData]
  rw [this]
  simp [dcAtTx, dcAtTx_tx]

theorem dcAtTx_evCmd (v : Option Level) (c : Byte) (t : List Event) :
    dcAtTx v (evCmd c ++ t) = some low :: dcAtTx (some low) t := by
  simp [evCmd, dcAtTx]

theorem dcAtTx_evArgs (v : Option Level) (f) (ds : List Byte) (t : List Event) :
    dcAtTx v (evArgs f ds ++ t) = ds.map (fun _ => some high) ++ dcAtTx (if ds = [] then v else some high) t := by
  unfold evArgs
  split
  · simp [*]
  · rename_i h
    cases f with
    | perEntry => simp only [dcAtTx_evData]
    | perByte =>
      have key : ∀ (ds : List Byte) v, ds ≠ [] → dcAtTx v (ds.flatMap (fun d => evData [d]) ++ t) =
          ds.map (fun _ => some high) ++ dcAtTx (some high) t := by
        intro ds
        induction ds with
        | nil => intro v h; exact absurd rfl h
        | cons d ds ih =>
          intro v _
          rw [List.flatMap_cons, List.append_assoc, dcAtTx_evData]
          by_cases hd : ds = []
          · subst hd; simp
          · rw [ih _ hd]; simp
      exact key ds v h

/-- The mode-select level at each byte of an entry (40_bus_transactions.md R133). -/
theorem dcAtTx_evEntry (v : Option Level) (f) (c) (ds : List Byte) (t : List Event) :
    dcAtTx v (evEntry f c ds ++ t) = some low :: ds.map (fun _ => some high) ++ dcAtTx (if ds =
        [] then some low else some high) t := by
  simp only [evEntry, List.append_assoc, dcAtTx_evCmd, dcAtTx_evArgs]; rfl

/-- The frames of an entry alone. -/
theorem frames_evEntry (f c ds) : frames (evEntry f c ds) = ⟨some low, [c]⟩ :: argFrames f ds := by
  simp only [frames, frameScan, foldl_next_evEntry ⟨[],none,none⟩ f c ds rfl]; rfl

theorem length_evData (bs) : (evData bs).length = bs.length + 4 := by simp [evData]

theorem length_each (ds : List Byte) : (ds.flatMap (fun d => evData [d])).length = 5 * ds.length := by
  induction ds with
  | nil => rfl
  | cons d ds ih => simp only [List.flatMap_cons, List.length_append, ih, length_evData, List.length_cons, List.length_nil]; omega

theorem length_evEntry_perByte (c ds) : (evEntry .perByte c ds).length = 5 + 5 * ds.length := by
  unfold evEntry evArgs
  split
  · simp [*, evCmd]
  · simp only [List.length_append, length_each]; rfl

theorem length_evEntry_perEntry (c) (ds : List Byte) (h : ds ≠ []) : (evEntry .perEntry c ds).length =
    ds.length + 9 := by
  unfold evEntry evArgs
  rw [if_neg h]
  simp only [List.length_append, length_evData]
  simp [evCmd]
  try omega

theorem length_evEntry_four (c : Byte) (w : List Byte) (h : w.length = 4) : (evEntry .perEntry c w).length = 13 ∧
    (evEntry .perByte c w).length = 25 := by
  rw [length_evEntry_perByte, length_evEntry_perEntry _ _ (by intro h'; simp [h'] at h), h]; simp

/-- An entry neither waits nor writes the reset line (41_reset_init.md R151). -/
theorem evEntry_no_wait_no_rst (f c) (ds : List Byte) : ∀ e ∈ evEntry f c ds, (∀ d, e ≠ .wait d) ∧ ∀ v, e ≠ .rst v := by
  have hd : ∀ bs, ∀ e ∈ evData bs, (∀ d, e ≠ .wait d) ∧ ∀ v, e ≠ .rst v := by
    intro bs e he
    simp [evData] at he
    rcases he with rfl | rfl | rfl | ⟨a, _, rfl⟩ | rfl <;> simp
  intro e he
  simp only [evEntry, List.mem_append] at he
  rcases he with he | he
  · simp [evCmd] at he
    rcases he with rfl | rfl | rfl | rfl | rfl <;> simp
  · unfold evArgs at he
    split at he
    · cases he
    · cases f with
      | perEntry => exact hd _ e he
      | perByte =>
        obtain ⟨d, _, h⟩ := List.mem_flatMap.1 he
        exact hd _ e h

/-- The frames of an initialization are its table's (41_reset_init.md R158). -/
theorem frames_evInit (f t d1 d2 d3) : frames (evInit f t d1 d2 d3) = tableFrames f t := by
  unfold frames frameScan evInit
  rw [List.foldl_append, foldl_next_evReset, (foldl_next_evTable _ f t rfl).1]
  rfl

/-- The column payload (42_flush.md R172). -/
theorem win_columns : win Config.xs Config.xe = [0x00, 0x28, 0x01, 0x17] := by decide

/-- The row payload (42_flush.md R172). -/
theorem win_rows : win Config.ys Config.ye = [0x00, 0x35, 0x00, 0xBB] := by decide

/-- The frames of a flush (42_flush.md R175). -/
theorem frames_evFlush (f b fb) :
    frames (evFlush f b fb) =
      (⟨some low, [b.caset]⟩ :: argFrames f [0x00, 0x28, 0x01, 0x17])
        ++ (⟨some low, [b.raset]⟩ :: argFrames f [0x00, 0x35, 0x00, 0xBB])
        ++ [⟨some low, [b.ramwr]⟩, ⟨some high, fb⟩] := by
  unfold frames frameScan evFlush
  rw [List.foldl_append, List.foldl_append, List.foldl_append, foldl_next_evEntry ⟨[], none, none⟩ _ _ _ rfl,
      foldl_next_evEntry _ _ _ _ rfl, foldl_next_evCmd _ _ rfl, foldl_next_evData _ _ rfl, win_columns, win_rows]
  simp

theorem length_evFlush_perEntry (b fb) (h' : fb.length = 64800) : (evFlush .perEntry b fb).length = 64835 := by
  simp only [evFlush, List.length_append, win_columns, win_rows, (length_evEntry_four _ [_,_,_,_] rfl).1,
      length_evData, h', evCmd, List.length_cons, List.length_nil]

theorem length_evFlush_perByte (b fb) (h' : fb.length = 64800) : (evFlush .perByte b fb).length = 64859 := by
  simp only [evFlush, List.length_append, win_columns, win_rows, (length_evEntry_four _ [_,_,_,_] rfl).2,
      length_evData, h', evCmd, List.length_cons, List.length_nil]

end Sys2Proof.Machine
end

