-- ==== Sys2Proof/Laws/Flush.lean ====
section
/-! SUPPORT. A flush event by event (10_state.md R34, R35; 70_reset_and_hazards.md R241): what one event does, and what
playing an event list does. -/

namespace Sys2Proof.Machine

/-- One event changes its line or TXB, and the trace. -/
theorem State.play_frame (s : State) (e : Event) :
    ∃ c d r x, s.play e = { s with cs := c, dc := d, rst := r, txb := x, trace := s.trace ++ [e] } := by
  cases e <;> exact ⟨_, _, _, _, rfl⟩

theorem State.play_trace (s e) : (State.play s e).trace = s.trace ++ [e] := by cases e <;> rfl

theorem State.play_fb (s e) : (State.play s e).fb = s.fb := by cases e <;> rfl

/-- What one event of a flush in progress can do. -/
theorem State.tick_cases (s : State) :
    (s.flushEvents[s.sp]? = none ∧ s.tick = s.flushEnd) ∨
    (∃ e, s.flushEvents[s.sp]? = some e ∧ s.sp + 1 = s.flushEvents.length ∧ s.tick =
        State.flushEnd { s.play e with sp := s.sp + 1 }) ∨
    (∃ e, s.flushEvents[s.sp]? = some e ∧ s.sp + 1 ≠ s.flushEvents.length ∧ s.tick =
        { s.play e with sp := s.sp + 1 }) := by
  unfold State.tick
  cases h : s.flushEvents[s.sp]? with
  | none => exact .inl ⟨rfl, rfl⟩
  | some e =>
    by_cases h2 : s.sp + 1 = s.flushEvents.length
    · exact .inr (.inl ⟨e, rfl, h2, by simp [h2]⟩)
    · exact .inr (.inr ⟨e, rfl, h2, by simp [h2]⟩)

/-- An event leaves its value on its line, or in TXB, and nothing else. -/
theorem State.play_eq (s : State) (e : Event) :
    s.play e = { s with
      cs := (Event.levelOn .cs e).getD s.cs, dc := (Event.levelOn .dc e).getD s.dc
      rst := (Event.levelOn .rst e).getD s.rst, txb := e.txByte.getD s.txb, trace := s.trace ++ [e] } := by
  cases e <;> rfl

theorem State.tick_frame (s : State) : s.tick.par = s.par ∧ s.tick.fb = s.fb ∧ s.tick.life = s.life ∧ s.tick.cfg =
    s.cfg := by
  obtain ⟨_, h⟩ | ⟨e, _, _, h⟩ | ⟨e, _, _, h⟩ := State.tick_cases s
  · rw [h]; exact ⟨rfl, rfl, rfl, rfl⟩
  · obtain ⟨c, d, r, x, hp⟩ := State.play_frame s e
    rw [h, hp]; exact ⟨rfl, rfl, rfl, rfl⟩
  · obtain ⟨c, d, r, x, hp⟩ := State.play_frame s e
    rw [h, hp]; exact ⟨rfl, rfl, rfl, rfl⟩

theorem State.tick_shown (s : State) : s.tick.shown = s.shown ∨ ∃ b, s.tick.shown = s.promise b := by
  obtain ⟨_, h⟩ | ⟨e, _, _, h⟩ | ⟨e, _, _, h⟩ := State.tick_cases s
  · rw [h]; exact .inr ⟨_, rfl⟩
  · obtain ⟨c, d, r, x, hp⟩ := State.play_frame s e
    rw [h, hp]; exact .inr ⟨_, rfl⟩
  · obtain ⟨c, d, r, x, hp⟩ := State.play_frame s e
    rw [h, hp]; exact .inl rfl

/-- The bulk frame's `TX` events among a flush's. -/
theorem evFlush_bulk (f b) (fb : List Byte) (i : Nat) (h : i < fb.length) :
   (evFlush f b fb)[bulkStart f + i]? = some (.tx (fb[i])) := by
  have key : ∀ (p : List Event) (n : Nat), p.length + 3 = n → (p ++ evData fb)[n + i]? = some (.tx fb[i]) := by
    intro p n hn
    rw [List.getElem?_append_right (by omega)]
    have : n + i - p.length = 3 + i := by omega
    rw [this]
    unfold evData
    rw [List.append_assoc, List.getElem?_append_right (by simp)]
    have h3 : 3 + i - ([Event.cs high, .dc high, .cs low] : List Event).length = i := by simp
    rw [h3, List.getElem?_append_left (by simpa using h)]
    simp [h]
  unfold evFlush
  cases f
  · apply key; rw [win_columns, win_rows]; rfl
  · apply key; rw [win_columns, win_rows]; rfl

theorem foldl_play_tx (s : State) (bs : List Byte) : (bs.map Event.tx).foldl State.play s = s.txAll bs := by
  unfold State.txAll
  induction bs generalizing s with
  | nil => rfl
  | cons b bs ih => exact ih _

theorem foldl_play_evCmd (s : State) (c) : (evCmd c).foldl State.play s = s.sendCommand c := rfl

theorem foldl_play_evData (s : State) (bs) : (evData bs).foldl State.play s = s.sendData bs := by
  unfold evData
  rw [List.foldl_append, List.foldl_append, foldl_play_tx]; rfl

theorem foldl_play_each (ds : List Byte) : ∀ s : State, (ds.flatMap (fun d => evData [d])).foldl State.play s =
    ds.foldl (fun t d => t.sendData [d]) s := by
  induction ds with
  | nil => intro s; rfl
  | cons d ds ih => intro s; rw [List.flatMap_cons, List.foldl_append, foldl_play_evData, ih]; rfl

/-- Playing the events of an entry is sending it. -/
theorem foldl_play_evEntry (s : State) (c ds) : (evEntry s.par.argFraming c ds).foldl State.play s =
    s.sendCmdWithArgs c ds := by
  unfold evEntry State.sendCmdWithArgs State.sendArgs evArgs
  rw [List.foldl_append, foldl_play_evCmd]
  have : (s.sendCommand c).par = s.par := by rw [State.sendCommand_eq]; rfl
  rw [this]
  split
  · rfl
  · cases s.par.argFraming
    · exact foldl_play_evData _ _
    · exact foldl_play_each _ _

theorem foldl_play_frame (es : List Event) : ∀ s : State, ∃ c d r x,
    es.foldl State.play s = { s with cs := c, dc := d, rst := r, txb := x, trace := s.trace ++ es } := by
  induction es with
  | nil => intro s; exact ⟨_, _, _, _, by simp; rfl⟩
  | cons e es ih =>
    intro s
    obtain ⟨c, d, r, x, h⟩ := State.play_frame s e
    obtain ⟨c', d', r', x', h'⟩ := ih (s.play e)
    refine ⟨c', d', r', x', ?_⟩
    rw [List.foldl_cons, h', h]
    simp

theorem State.flushEvents_congr {s t : State} (hp : t.par = s.par) (hf : t.fb = s.fb) : t.flushEvents =
    s.flushEvents := by
  unfold State.flushEvents; rw [hp, State.fbBytes_congr s t hp hf]

theorem State.length_flushEvents (s : State) : s.flushEvents.length = bulkStart s.par.argFraming + 64801 := by
  have h' : s.fbBytes.length = 64800 := State.length_fbBytes s
  have e : s.flushEvents = evFlush s.par.argFraming s.par.cmd s.fbBytes := rfl
  rw [e]
  generalize s.fbBytes = bb at *
  cases s.par.argFraming
  · rw [length_evFlush_perEntry _ _ h']; rfl
  · rw [length_evFlush_perByte _ _ h']; rfl

theorem State.length_flushEvents_congr {s t : State} (hp : t.par = s.par) : t.flushEvents.length =
    s.flushEvents.length := by
  rw [State.length_flushEvents, State.length_flushEvents, hp]

end Sys2Proof.Machine
end

