-- ==== Sys2Proof/Laws/PerInstr.lean ====
section
/-! SUPPORT. Per-instruction facts about the syntax: the first word of every encoding meets its row of
spec/opcode_table.json (match under mask). -/

namespace Sys2Proof.Laws.TableWord

/-- The row's `mask`, on the first byte of a descriptor or the first symbol of a frame. -/
def rowMask : Instr → Nat
  | .wireCommand _ => 0x100
  | .wireData _ => 0x100
  | .initEntry _ _ => 0x100
  | .cmdCaset => 0x1FF
  | .cmdRaset => 0x1FF
  | .cmdRamwr => 0x1FF
  | .cmdMadctl _ => 0x1FF
  | .cmdColmod _ => 0x1FF
  | .cmdPorch _ => 0x1FF
  | .cmdGammaPos _ => 0x1FF
  | .cmdGammaNeg _ => 0x1FF
  | .cmdPixaddrMode => 0x1FF
  | .cmdSleepOut => 0x1FF
  | .cmdDisplayOn => 0x1FF
  | _ => 0xFF

/-- The row's `match`. -/
def rowMatch : Instr → Nat
  | .construct => 0x00
  | .reset => 0x01
  | .initPanel => 0x02
  | .flush => 0x03
  | .showFrame => 0x03
  | .fbWrite _ _ => 0x04
  | .fbRead _ => 0x05
  | .blId => 0x06
  | .sendCommand _ => 0x10
  | .sendData _ => 0x11
  | .wireCommand _ => 0x000
  | .wireData _ => 0x100
  | .cmdCaset => 0x02A
  | .cmdRaset => 0x02B
  | .cmdRamwr => 0x02C
  | .cmdMadctl _ => 0x036
  | .cmdColmod _ => 0x03A
  | .cmdPorch _ => 0x0B2
  | .cmdGammaPos _ => 0x0E0
  | .cmdGammaNeg _ => 0x0E1
  | .cmdPixaddrMode => 0x021
  | .cmdSleepOut => 0x011
  | .cmdDisplayOn => 0x029
  | .initEntry _ _ => 0x000

/-- The first word of an instruction's code; an empty frame has none. -/
def firstWord : Code → Option Nat
  | .descriptor bs => bs.head?.map BitVec.toNat
  | .frame ss => ss.head?.map BitVec.toNat

/-- A well-formed instruction's first word meets its row, with the default command bytes. -/
def Statement (i : Instr) : Prop :=
  i.wellFormed Params.default = true →
    (firstWord (encode CmdBytes.default i)).map (fun w => w &&& rowMask i) = some (rowMatch i)

theorem construct : Statement .construct := fun _ => rfl
theorem reset : Statement .reset := fun _ => rfl
theorem initPanel : Statement .initPanel := fun _ => rfl
theorem flush : Statement .flush := fun _ => rfl
theorem showFrame : Statement .showFrame := fun _ => rfl
theorem fbWrite (a : Half) (b : Byte) : Statement (.fbWrite a b) := fun _ => (show some (0x04 &&& 0xFF) = some 0x04 from rfl)
theorem fbRead (a : Half) : Statement (.fbRead a) := fun _ => (show some (0x05 &&& 0xFF) = some 0x05 from rfl)
theorem blId : Statement .blId := fun _ => rfl
theorem sendCommand (c : Byte) : Statement (.sendCommand c) := fun _ => (show some (0x10 &&& 0xFF) = some 0x10 from rfl)
theorem sendData (bs : List Byte) : Statement (.sendData bs) := fun _ => (show some (0x11 &&& 0xFF) = some 0x11 from rfl)

/-- A command symbol has bit 8 clear, a data symbol has it set (30_encoding.md R91). -/
theorem mkSymbol_and (v : Level) (b : Byte) : (mkSymbol v b).toNat &&& 0x100 = v.toNat * 0x100 := by
  revert v b
  decide +kernel

theorem wireCommand (c : Byte) : Statement (.wireCommand c) := fun _ => by
  simp [firstWord, encode, frameGroup, rowMask, rowMatch, mkSymbol_and]

theorem wireData (bs : List Byte) : Statement (.wireData bs) := fun h => by
  cases bs with
  | nil => simp [Instr.wellFormed] at h
  | cons b bs => simp [firstWord, encode, rowMask, rowMatch, mkSymbol_and]

theorem cmdCaset : Statement .cmdCaset := fun _ => rfl
theorem cmdRaset : Statement .cmdRaset := fun _ => rfl
theorem cmdRamwr : Statement .cmdRamwr := fun _ => rfl
theorem cmdMadctl (ds : List Byte) : Statement (.cmdMadctl ds) := fun _ => (show some (0x036 &&& 0x1FF) = some 0x036 from rfl)
theorem cmdColmod (ds : List Byte) : Statement (.cmdColmod ds) := fun _ => (show some (0x03A &&& 0x1FF) = some 0x03A from rfl)
theorem cmdPorch (ds : List Byte) : Statement (.cmdPorch ds) := fun _ => (show some (0x0B2 &&& 0x1FF) = some 0x0B2 from rfl)
theorem cmdGammaPos (ds : List Byte) : Statement (.cmdGammaPos ds) := fun _ => (show some (0x0E0 &&& 0x1FF) = some 0x0E0 from rfl)
theorem cmdGammaNeg (ds : List Byte) : Statement (.cmdGammaNeg ds) := fun _ => (show some (0x0E1 &&& 0x1FF) = some 0x0E1 from rfl)
theorem cmdPixaddrMode : Statement .cmdPixaddrMode := fun _ => rfl
theorem cmdSleepOut : Statement .cmdSleepOut := fun _ => rfl
theorem cmdDisplayOn : Statement .cmdDisplayOn := fun _ => rfl

theorem initEntry (c : Byte) (ds : List Byte) : Statement (.initEntry c ds) := fun _ => by
  simp [firstWord, encode, frameGroup, rowMask, rowMatch, mkSymbol_and]

end Sys2Proof.Laws.TableWord
end

