-- ==== Sys2Proof/Laws/Quiet.lean ====
section
/-! SUPPORT. Traces between operations and the prefixes of a flush: what keeps a trace quiet, and how the events of a flush
depend on the frame buffer (42_flush.md R178, 70_reset_and_hazards.md R241). -/

namespace Sys2Proof.Machine

/-- Scanning more events never takes a frame back. -/
theorem foldl_next_out_prefix (es : List Event) : ∀ k : FrameScan, k.out <+: (es.foldl FrameScan.next k).out := by
  induction es with
  | nil => intro k; exact List.prefix_rfl
  | cons e es ih =>
    intro k
    refine List.IsPrefix.trans ?_ (ih (k.next e))
    rcases k with ⟨o, d, c⟩
    cases e with
    | cs v =>
      simp only [FrameScan.next]
      split <;> cases c <;> first | exact List.prefix_rfl | exact List.prefix_append _ _
    | tx b => cases c <;> exact List.prefix_rfl
    | dc v => exact List.prefix_rfl
    | rst v => exact List.prefix_rfl
    | wait d => exact List.prefix_rfl

/-- Events that keep the discipline from every level but an open transaction keep a trace clean. -/
theorem traceClean_append {t u : List Event} (h : traceClean t = true)
    (hu : ∀ v, v ≠ some low → ∃ w, discipline v u = some w ∧ w ≠ some low) : traceClean (t ++ u) = true := by
  unfold traceClean at *
  rw [discipline_append]
  cases hd : discipline none t with
  | none => rw [hd] at h; cases h
  | some v =>
    rw [hd] at h
    simp only [decide_eq_true_eq] at h
    obtain ⟨w, hw, hw2⟩ := hu v h
    simp only [Option.bind_some, hw, decide_eq_true_eq]
    exact hw2

/-- Whole frames of format WC or WD after a quiet trace leave it quiet. -/
theorem QuietTrace.append {t es : List Event} {fs : List Frame} (h : QuietTrace t)
    (hd : ∀ v, v ≠ some low → ∃ w, discipline v es = some w ∧ w ≠ some low)
    (hf : ∀ k : FrameScan, k.cur = none →
      (es.foldl FrameScan.next k).out = k.out ++ fs ∧ (es.foldl FrameScan.next k).cur = none)
    (hfs : fs.all Frame.isWcOrWd = true) : QuietTrace (t ++ es) := by
  have h1 := hf (frameScan t) h.closed
  refine ⟨traceClean_append h.clean hd, ?_, ?_⟩
  · have h2 := h.formed
    unfold frames at *
    rw [frameScan_append, h1.1, List.all_append, h2, hfs]
    rfl
  · rw [frameScan_append]
    exact h1.2

/-- A whole flush after a quiet trace leaves it quiet. -/
theorem QuietTrace.append_evFlush {t : List Event} (h : QuietTrace t) (f b) {fb : List Byte} (hne : fb ≠ []) :
    QuietTrace (t ++ evFlush f b fb) := by
  have h1 : 1 ≤ fb.length := List.length_pos_of_ne_nil hne
  apply h.append (fs := frames (evFlush f b fb))
  · intro v _
    refine ⟨some high, ?_, by decide⟩
    unfold evFlush
    rw [discipline_append, discipline_append, discipline_append, discipline_evEntry]
    simp only [Option.bind_some, discipline_evEntry, discipline_evCmd, discipline_evData]
  · intro k hk
    rw [frames_evFlush]
    unfold evFlush
    rw [List.foldl_append, List.foldl_append, List.foldl_append, foldl_next_evEntry _ _ _ _ hk,
      foldl_next_evEntry _ _ _ _ rfl, foldl_next_evCmd _ _ rfl, foldl_next_evData _ _ rfl, win_columns, win_rows]
    simp
  · rw [frames_evFlush]
    cases f <;> simp [argFrames, Frame.isWcOrWd, h1]

/-- Any beginning of a quiet trace keeps the discipline, and its complete frames are of format WC or WD. -/
theorem QuietTrace.prefix_facts {t u : List Event} (h : QuietTrace (t ++ u)) :
    discipline none t ≠ none ∧ (frames t).all Frame.isWcOrWd = true := by
  refine ⟨fun hn => ?_, List.all_eq_true.2 fun x hx => ?_⟩
  · have hc := h.clean
    unfold traceClean at hc
    rw [discipline_append, hn] at hc
    cases hc
  · have hp : frames t <+: frames (t ++ u) := by
      unfold frames
      rw [frameScan_append]
      exact foldl_next_out_prefix _ _
    exact List.all_eq_true.1 h.formed x (hp.subset hx)

/-- The events of a flush: a head that does not depend on the buffer, its bytes, and the end of the frame. -/
theorem evFlush_shape (f b) : ∃ H : List Event, H.length = bulkStart f ∧
    ∀ fb, evFlush f b fb = H ++ fb.map Event.tx ++ [.cs high] := by
  refine ⟨evEntry f b.caset (win Config.xs Config.xe) ++ evEntry f b.raset (win Config.ys Config.ye) ++ evCmd b.ramwr
    ++ [.cs high, .dc high, .cs low], ?_, fun fb => by simp [evFlush, evData, List.append_assoc]⟩
  rw [win_columns, win_rows]
  cases f <;> rfl

/-- The number of events of a flush does not depend on the buffer's contents. -/
theorem length_evFlush_congr (f b) {fb g : List Byte} (h : fb.length = g.length) :
    (evFlush f b fb).length = (evFlush f b g).length := by
  obtain ⟨H, _, hs⟩ := evFlush_shape f b
  simp only [hs, List.length_append, List.length_map, h]

/-- The event list of a flush, by index. -/
theorem getElem?_evFlush (f b) : ∃ H : List Event, H.length = bulkStart f ∧ ∀ (fb : List Byte) (j : Nat),
    (evFlush f b fb)[j]? = if j < H.length then H[j]?
      else if j - H.length < fb.length then (fb[j - H.length]?).map Event.tx
      else if j - H.length = fb.length then some (.cs high) else none := by
  obtain ⟨H, hH, hs⟩ := evFlush_shape f b
  refine ⟨H, hH, fun fb j => ?_⟩
  rw [hs, List.append_assoc, List.getElem?_append]
  split
  · rfl
  · rw [List.getElem?_append, List.length_map]
    split
    · rw [List.getElem?_map]
    · split
      · rename_i h
        rw [h, Nat.sub_self]
        rfl
      · exact List.getElem?_eq_none (by simp; omega)

/-- The first events of a flush of one buffer and then the next event of a flush of another, as it is read then, are the
first events of a flush of some buffer. -/
theorem evFlush_next (f b) {fb g : List Byte} {n : Nat} {e : Event} (hl : fb.length = g.length)
    (he : (evFlush f b g)[n]? = some e) :
    ∃ fb', fb'.length = g.length ∧ (evFlush f b fb').take (n + 1) = (evFlush f b fb).take n ++ [e] := by
  obtain ⟨H, _, hi⟩ := getElem?_evFlush f b
  let m := n - H.length
  have h' : (fb.take m ++ g.drop m).length = g.length := by
    rw [List.length_append, List.length_take, List.length_drop]
    omega
  have hx : ∀ j, (fb.take m ++ g.drop m)[j]? = if j < m then fb[j]? else g[j]? := by
    intro j
    rw [List.getElem?_append, List.length_take]
    rcases Nat.lt_or_ge j g.length with hk | hk
    · by_cases hj : j < m
      · rw [if_pos hj, if_pos (by omega), List.getElem?_take, if_pos hj]
      · rw [if_neg hj, if_neg (by omega), List.getElem?_drop]
        congr 1
        omega
    · rw [if_neg (by omega), List.getElem?_drop, List.getElem?_eq_none (by omega),
        List.getElem?_eq_none (show fb.length ≤ j by omega), List.getElem?_eq_none (show g.length ≤ j by omega), ite_self]
  refine ⟨fb.take m ++ g.drop m, h', ?_⟩
  have hn : (evFlush f b (fb.take m ++ g.drop m))[n]? = some e := by
    rw [← he, hi, hi, hx, if_neg (Nat.lt_irrefl _), h']
  rw [List.take_add_one, hn]
  congr 1
  apply List.ext_getElem?
  intro j
  rw [List.getElem?_take, List.getElem?_take]
  split
  · rw [hi, hi, hx, h', hl]
    split
    · rfl
    · rw [if_pos (show j - H.length < m by omega)]
  · rfl

end Sys2Proof.Machine
end

