-- ==== Sys2Proof/Tests/Slice0.lean ====
section
/-! SUPPORT. Tests. Expected values come from spec/95_test_vectors.md (named by vector), from the encodings of
30_encoding.md, or by hand from the rule named; and, for each obligation with hypotheses, operands that meet them. -/

namespace Sys2Proof.Tests

open Sys2Proof Sys2Proof.Machine

/-! ## Helpers -/

/-- The synthetic table `T_min` of 95_test_vectors.md, family 41. -/
def tMin : InitTable :=
  [(0x36, [0x00]), (0x3A, [0x55]), (0xB2, [0x01, 0x02]),
    (0xE0, [0x00, 0x01, 0x02, 0x03, 0x04, 0x05, 0x06, 0x07, 0x08, 0x09, 0x0A, 0x0B, 0x0C]),
    (0xE1, [0x10, 0x11, 0x12, 0x13, 0x14, 0x15, 0x16, 0x17, 0x18, 0x19, 0x1A, 0x1B, 0x1C]),
    (0x21, []), (0x11, []), (0x29, [])]

/-- The candidate table G2 of 93_implementation_defined.md. -/
def tG2 : InitTable :=
  [(0x36, [0x70]), (0x3A, [0x05]), (0xB2, [0x0C, 0x0C, 0x00, 0x33, 0x33]), (0xB7, [0x35]), (0xBB, [0x19]),
    (0xC0, [0x2C]), (0xC2, [0x01]), (0xC3, [0x12]), (0xC4, [0x20]), (0xC6, [0x0F]), (0xD0, [0xA4, 0xA1]),
    (0xE0, [0xD0, 0x04, 0x0D, 0x11, 0x13, 0x2B, 0x3F, 0x54, 0x4C, 0x18, 0x0D, 0x0B, 0x1F, 0x23]),
    (0xE1, [0xD0, 0x04, 0x0C, 0x11, 0x13, 0x2C, 0x3F, 0x44, 0x51, 0x2F, 0x1F, 0x1F, 0x20, 0x23]),
    (0x21, []), (0x11, []), (0x29, [])]

/-- Concrete parameters: `T_min`, `per_entry`, big-endian pixels, a buffer of zeros, `BL_ID = 13`. -/
def params : Params where
  cmd := CmdBytes.default
  initTable := tMin
  gammaLen := 13
  argFraming := .perEntry
  pixelByteOrder := .big
  fbInit := []
  rawBusAccess := true
  concurrentFbWrite := false
  construction := { csId := 1, rstId := 2, dcId := 3, sckId := 4, mosiId := 5, blId := 13, busId := 1, busHz := 10000000, cpol := 0, cpha := 0 }

/-- Power-on with those parameters. -/
def st0 : State := { State.reset with par := params }

/-- A constructed machine in Ready. -/
def st : State := { State.reset with life := .ready, par := params, cfg := params.construction }

/-- The same without raw bus access. -/
def stNoRaw : State := { st with par := { params with rawBusAccess := false } }

/-- The same with frame-buffer writes admitted during a flush, no flush in progress. -/
def stCon : State := { st with par := { params with concurrentFbWrite := true } }

/-- A flush in progress. -/
def stBusy : State := { stCon with busy := true }

/-- Something of the next state, if there is one. -/
def after {α : Type} (f : State → α) : Host.Outcome State Fault Refusal → Option α
  | .next t => some (f t)
  | .fault _ => none
  | .refused _ => none

/-- The refusal, if it is one. -/
def refusal : Host.Outcome State Fault Refusal → Option Refusal
  | .next _ => none
  | .fault _ => none
  | .refused r => some r

/-- Is it a next state? -/
def isNext (o : Host.Outcome State Fault Refusal) : Bool := (after (fun _ => ()) o).isSome

/-! ## Well-formedness: an ill-formed term for each check (30_encoding.md R100, R106; 41_reset_init.md R146 to R148) -/

theorem test_wf_refuses_write_address : (Instr.fbWrite 64800 0).wellFormed params = false := by decide
theorem test_wf_refuses_read_address : (Instr.fbRead 65535).wellFormed params = false := by decide
theorem test_wf_refuses_empty_payload : (Instr.sendData []).wellFormed params = false := by decide
theorem test_wf_refuses_empty_data_frame : (Instr.wireData []).wellFormed params = false := by decide
theorem test_wf_refuses_bare_madctl : (Instr.cmdMadctl []).wellFormed params = false := by decide
theorem test_wf_refuses_bare_colmod : (Instr.cmdColmod []).wellFormed params = false := by decide
theorem test_wf_refuses_long_porch : (Instr.cmdPorch (List.replicate 256 0)).wellFormed params = false := by decide +kernel
theorem test_wf_refuses_gamma_length :
    (Instr.cmdGammaPos (List.replicate 14 0)).wellFormed params = false ∧
      (Instr.cmdGammaNeg (List.replicate 12 0)).wellFormed params = false := by decide
theorem test_wf_refuses_long_entry : (Instr.initEntry 0 (List.replicate 256 0)).wellFormed params = false := by decide +kernel
theorem test_wf_accepts_the_last_address :
    (Instr.fbWrite 64799 0).wellFormed params = true ∧ (Instr.fbRead 0).wellFormed params = true := by decide

/-! ## Decoding, words written out from 30_encoding.md -/

/-- VE-1 to VE-4, VE-7. -/
theorem test_decode_h0 :
    decodeHost [0x00] = .ok .construct [] ∧ decodeHost [0x01] = .ok .reset [] ∧
      decodeHost [0x02] = .ok .initPanel [] ∧ decodeHost [0x03] = .ok .flush [] ∧
      decodeHost [0x06] = .ok .blId [] := by decide
/-- VE-5, VE-6: the operands are big-endian. -/
theorem test_decode_h1_h2 :
    decodeHost [0x04, 0x00, 0x05, 0xAB] = .ok (.fbWrite 5 0xAB) [] ∧
      decodeHost [0x05, 0xFD, 0x1F] = .ok (.fbRead 64799) [] := by decide
/-- VE-8, VE-9, VE-10. -/
theorem test_decode_h3_h4 :
    decodeHost [0x10, 0x2C] = .ok (.sendCommand 0x2C) [] ∧
      decodeHost [0x11, 0x00, 0x00, 0x00, 0x02, 0xAA, 0xBB] = .ok (.sendData [0xAA, 0xBB]) [] ∧
      decodeHost [0x11, 0x00, 0x00, 0x00, 0x00] = .ok (.sendData []) [] := by decide
/-- VE-12, VE-13, VE-14. -/
theorem test_decode_refusals_and_trailing :
    decodeHost [0x07] = .invalidOp ∧ decodeHost [0x0F] = .invalidOp ∧ decodeHost [0x12] = .invalidOp ∧
      decodeHost [0xFF] = .invalidOp ∧ decodeHost [0x04, 0x00, 0x05] = .truncated ∧
      decodeHost [0x11, 0x00, 0x00, 0x00, 0x02, 0xAA] = .truncated ∧
      decodeHost [0x01, 0x03] = .ok .reset [0x03] := by decide
/-- VE-15, and each panel command's symbol, bit 8 low (R91, R96, R97). -/
theorem test_decode_bare_symbols :
    decodeFrame CmdBytes.default [0b000101010] = some .cmdCaset ∧
      decodeFrame CmdBytes.default [0b000101011] = some .cmdRaset ∧
      decodeFrame CmdBytes.default [0b000101100] = some .cmdRamwr ∧
      decodeFrame CmdBytes.default [0b000100001] = some .cmdPixaddrMode ∧
      decodeFrame CmdBytes.default [0b000010001] = some .cmdSleepOut ∧
      decodeFrame CmdBytes.default [0b000101001] = some .cmdDisplayOn ∧
      decodeFrame CmdBytes.default [0b000000001] = some (.wireCommand 1) ∧
      decodeFrame CmdBytes.default [0b111111111] = some (.wireData [0xFF]) := by decide
/-- The commands with data: a command symbol and data symbols with bit 8 high. -/
theorem test_decode_commands_with_data :
    decodeFrame CmdBytes.default [0b000110110, 0b101110000] = some (.cmdMadctl [0x70]) ∧
      decodeFrame CmdBytes.default [0b000111010, 0b100000101] = some (.cmdColmod [0x05]) ∧
      decodeFrame CmdBytes.default [0b010110010, 0b100001100] = some (.cmdPorch [0x0C]) ∧
      decodeFrame CmdBytes.default [0b011100000, 0b111010000] = some (.cmdGammaPos [0xD0]) ∧
      decodeFrame CmdBytes.default [0b011100001, 0b111010000] = some (.cmdGammaNeg [0xD0]) ∧
      decodeFrame CmdBytes.default [0b010110111, 0b100110101] = some (.initEntry 0xB7 [0x35]) := by decide
/-- A group that is no frame: nothing, or a command symbol after the first. -/
theorem test_decode_malformed_groups :
    decodeFrame CmdBytes.default [] = none ∧ decodeFrame CmdBytes.default [0x02A, 0x02B] = none ∧
      decodeFrame CmdBytes.default [0x1AA, 0x02B] = none := by decide
/-- Data bytes after a command that takes none: a plain entry. -/
theorem test_decode_data_after_bare_command :
    decodeFrame CmdBytes.default [0x02A, 0x100, 0x128] = some (.initEntry 0x2A [0x00, 0x28]) := by decide
/-- The encoder writes the vectors' bytes (VE-5, VE-6, VE-9; R103). -/
theorem test_encode_descriptors :
    encode CmdBytes.default (.fbWrite 5 0xAB) = .descriptor [0x04, 0x00, 0x05, 0xAB] ∧
      encode CmdBytes.default (.fbRead 64799) = .descriptor [0x05, 0xFD, 0x1F] ∧
      encode CmdBytes.default (.sendData [0xAA, 0xBB]) =
        .descriptor [0x11, 0x00, 0x00, 0x00, 0x02, 0xAA, 0xBB] ∧
      encode CmdBytes.default .showFrame = .descriptor [0x03] ∧
      encode CmdBytes.default (.cmdMadctl [0x70]) = .frame [0x036, 0x170] := by decide
/-- Each row's `match` value of spec/opcode_table.json, at the row's width in whole bytes. -/
theorem test_table_words :
    decodeTableWord 8 0x00 = some .construct ∧ decodeTableWord 8 0x01 = some .reset ∧
      decodeTableWord 8 0x02 = some .initPanel ∧ decodeTableWord 8 0x03 = some .flush ∧
      decodeTableWord 32 0xAB050004 = some (.fbWrite 5 0xAB) ∧ decodeTableWord 24 0x1FFD05 = some (.fbRead 64799) ∧
      decodeTableWord 8 0x06 = some .blId ∧ decodeTableWord 16 0x2C10 = some (.sendCommand 0x2C) ∧
      decodeTableWord 40 0x0200000011 = some (.sendData [0x00, 0x00]) := by decide
theorem test_table_symbols :
    decodeTableWord 16 0x000 = some (.wireCommand 0) ∧ decodeTableWord 9 0x1FF = some (.wireData [0xFF]) ∧
      decodeTableWord 16 0x02A = some .cmdCaset ∧ decodeTableWord 16 0x02B = some .cmdRaset ∧
      decodeTableWord 16 0x02C = some .cmdRamwr ∧ decodeTableWord 16 0x036 = some (.cmdMadctl []) ∧
      decodeTableWord 16 0x03A = some (.cmdColmod []) ∧ decodeTableWord 16 0x0B2 = some (.cmdPorch []) ∧
      decodeTableWord 16 0x0E0 = some (.cmdGammaPos []) ∧ decodeTableWord 16 0x0E1 = some (.cmdGammaNeg []) ∧
      decodeTableWord 16 0x021 = some .cmdPixaddrMode ∧ decodeTableWord 16 0x011 = some .cmdSleepOut ∧
      decodeTableWord 9 0x029 = some .cmdDisplayOn := by decide
/-- VE-16. -/
theorem test_rom_image : decodeRom [0x36, 0x01, 0x00, 0x29, 0x00] = some [(0x36, [0x00]), (0x29, [])] := by decide
theorem test_rom_image_cut_short : decodeRom [0x36, 0x02, 0x00] = none := by decide
/-- R106: SEND_COMMAND's second byte and the window payload are read most significant byte first (V42-1a to V42-1d). -/
theorem test_window_payload :
    win 0x0028 0x0117 = [0x00, 0x28, 0x01, 0x17] ∧ win 0x0035 0x00BB = [0x00, 0x35, 0x00, 0xBB] ∧
      win 0 0 = [0, 0, 0, 0] ∧ win 0xFFFF 0x1234 = [0xFF, 0xFF, 0x12, 0x34] := by decide
/-- The text of an operation (R109). -/
theorem test_text : lineText (.fbWrite 5 171) = "FB_WRITE 5, 171" ∧ lineText .flush = "FLUSH" ∧
    lineText (.sendData [1, 2]) = "SEND_DATA [1, 2]" := by decide

/-! ## The initialization table -/

/-- V41-6, V41-7, V41-8. -/
theorem test_wf_init_t_min :
    wfInit CmdBytes.default 13 tMin = true ∧
      wfInit CmdBytes.default 13 (tMin.take 6 ++ [(0x29, []), (0x11, [])]) = false ∧
      wfInit CmdBytes.default 13 (tMin.set 3 (0xE0, List.replicate 14 0)) = false ∧
      wfInit CmdBytes.default 14 (tMin.set 3 (0xE0, List.replicate 14 0)) = false := by decide
/-- V41-9. -/
theorem test_wf_init_g2 : wfInit CmdBytes.default 13 tG2 = false ∧ wfInit CmdBytes.default 14 tG2 = true := by decide
/-- V41-10. -/
theorem test_counts_g2 :
    (evInit .perEntry tG2 0 0 0).length = 182 ∧ (frames (evInit .perEntry tG2 0 0 0)).length = 29 ∧
      (evInit .perByte tG2 0 0 0).length = 306 ∧ (frames (evInit .perByte tG2 0 0 0)).length = 60 := by decide +kernel

/-! ## The wire -/

/-- V40-10. -/
theorem test_frames :
    frames [.rst 1, .wait 0, .cs 1, .dc 0, .cs 0, .tx 7, .cs 1, .cs 1, .dc 1, .cs 0, .tx 8, .tx 9, .cs 1] =
      [⟨some 0, [7]⟩, ⟨some 1, [8, 9]⟩] := by decide
/-- V40-5: falling, rising, falling, rising from a line that was high. -/
theorem test_waveform : waveform .cs (some 1) (evCmd 0x11 ++ evCmd 0x29) = [0, 1, 0, 1] := by decide
/-- V40-6: a rising edge first if and only if the line held 0. -/
theorem test_waveform_from_low :
    waveform .cs (some 0) (evCmd 0x36) = [1, 0, 1] ∧ waveform .cs (some 1) (evCmd 0x36) = [0, 1] := by decide
/-- V40-7a to V40-7c. -/
theorem test_entry_framings :
    (evEntry .perEntry 0x2A [0x00, 0x28, 0x01, 0x17]).length = 13 ∧
      (evEntry .perByte 0x2A [0x00, 0x28, 0x01, 0x17]).length = 25 ∧
      txBytes (evEntry .perByte 0x2A [0x00, 0x28, 0x01, 0x17]) = [0x2A, 0x00, 0x28, 0x01, 0x17] ∧
      dcAtTx none (evEntry .perByte 0x2A [0x00, 0x28, 0x01, 0x17]) =
        [some 0, some 1, some 1, some 1, some 1] := by decide
/-- R111: data in several frames belongs to the most recent command. -/
theorem test_commands_of :
    commandsOf (frames (evEntry .perByte 0x2A [0x00, 0x28] ++ evCmd 0x29)) = [(0x2A, [0x00, 0x28]), (0x29, [])] := by
  decide
/-- V40-13 (F8): a hold of less than 10 ms breaks the discipline, one of 10 ms keeps it. -/
theorem test_discipline_holds : traceClean [.wait 9999000] = false ∧ traceClean [.wait 10000000] = true := by decide
theorem test_discipline_lines : traceClean [.cs 0, .dc 1, .cs 1] = false ∧ traceClean [.tx 1] = false := by decide

/-! ## Instructions, one step each -/

/-- V40-1. -/
theorem test_wire_command :
    after (fun t => (t.cs, t.dc, t.txb, t.trace)) (exec (.wireCommand 0x00) { st with dc := 1, txb := 9 }) =
      some (1, 0, 0x00, [.cs 1, .dc 0, .cs 0, .tx 0x00, .cs 1]) := by decide
/-- V40-4. -/
theorem test_wire_data :
    after (fun t => (t.cs, t.dc, t.txb, t.trace)) (exec (.wireData [0x00, 0x28, 0x01, 0x17]) st) =
      some (1, 1, 0x17, [.cs 1, .dc 1, .cs 0, .tx 0x00, .tx 0x28, .tx 0x01, .tx 0x17, .cs 1]) := by decide
/-- V40-11. -/
theorem test_wire_data_empty : refusal (exec (.wireData []) st) = some .emptyPayload := by decide
/-- P5: a host-issued command withdraws the guarantee. -/
theorem test_send_command :
    after (fun t => (t.life, t.shown, t.trace)) (exec (.sendCommand 0x28) { st with shown := .image [] }) =
      some (.initializing, .undefined, [.cs 1, .dc 0, .cs 0, .tx 0x28, .cs 1]) := by decide
/-- P4. -/
theorem test_send_command_not_admitted : refusal (exec (.sendCommand 0x29) stNoRaw) = some .rawNotAdmitted := by decide
theorem test_send_data :
    after (fun t => (t.life, t.dc, t.trace)) (exec (.sendData [0x5A]) st) =
      some (.initializing, 1, [.cs 1, .dc 1, .cs 0, .tx 0x5A, .cs 1]) := by decide
/-- VE-10: refused also with raw bus access; and R206, raw access is asked for first. -/
theorem test_send_data_empty :
    refusal (exec (.sendData []) st) = some .emptyPayload ∧
      refusal (exec (.sendData []) stNoRaw) = some .rawNotAdmitted := by decide
/-- V40-7a. -/
theorem test_caset :
    after (fun t => frames t.trace) (exec .cmdCaset st) =
      some [⟨some 0, [0x2A]⟩, ⟨some 1, [0x00, 0x28, 0x01, 0x17]⟩] := by decide
theorem test_raset :
    after (fun t => frames t.trace) (exec .cmdRaset st) =
      some [⟨some 0, [0x2B]⟩, ⟨some 1, [0x00, 0x35, 0x00, 0xBB]⟩] := by decide
theorem test_ramwr : after (fun t => (t.dc, frames t.trace)) (exec .cmdRamwr st) = some (0, [⟨some 0, [0x2C]⟩]) := by
  decide
/-- V40-9. -/
theorem test_colmod :
    after (fun t => (t.trace.length, frames t.trace)) (exec (.cmdColmod [0x05]) st) =
      some (10, [⟨some 0, [0x3A]⟩, ⟨some 1, [0x05]⟩]) := by decide
theorem test_madctl :
    after (fun t => (t.txb, frames t.trace)) (exec (.cmdMadctl [0x70]) st) =
      some (0x70, [⟨some 0, [0x36]⟩, ⟨some 1, [0x70]⟩]) := by decide
/-- R128 with `per_byte`. -/
theorem test_porch_per_byte :
    after (fun t => frames t.trace)
        (exec (.cmdPorch [0x01, 0x02]) { st with par := { params with argFraming := .perByte } }) =
      some [⟨some 0, [0xB2]⟩, ⟨some 1, [0x01]⟩, ⟨some 1, [0x02]⟩] := by decide
theorem test_gamma :
    after (fun t => frames t.trace) (exec (.cmdGammaPos [1, 2, 3]) st) =
        some [⟨some 0, [0xE0]⟩, ⟨some 1, [1, 2, 3]⟩] ∧
      after (fun t => frames t.trace) (exec (.cmdGammaNeg [4, 5]) st) =
        some [⟨some 0, [0xE1]⟩, ⟨some 1, [4, 5]⟩] := by decide
theorem test_bare_commands :
    after (fun t => frames t.trace) (exec .cmdPixaddrMode st) = some [⟨some 0, [0x21]⟩] ∧
      after (fun t => frames t.trace) (exec .cmdSleepOut st) = some [⟨some 0, [0x11]⟩] ∧
      after (fun t => frames t.trace) (exec .cmdDisplayOn st) = some [⟨some 0, [0x29]⟩] := by decide
/-- V40-8: no data, no data frame. -/
theorem test_entry_without_data :
    after (fun t => (t.trace.length, frames t.trace)) (exec (.initEntry 0x29 []) st) =
      some (5, [⟨some 0, [0x29]⟩]) := by decide
/-- V41-1, without its durations. -/
theorem test_reset :
    after (fun t => (t.rst, t.life, t.shown, t.trace.map Event.forgetDuration))
        (exec .reset { st with shown := .image [] }) =
      some (1, .resetting, .undefined, [.rst 1, .wait 0, .rst 0, .wait 0, .rst 1, .wait 0]) := by decide
/-- V41-3. -/
theorem test_initialize :
    after (fun t => (t.life, t.cs, t.dc, t.rst, t.txb, t.trace.length)) (exec .initPanel st) =
      some (.ready, 1, 0, 1, 0x29, 96) := by decide +kernel
theorem test_initialize_frames :
    after (fun t => (frames t.trace).length) (exec .initPanel st) = some 13 := by decide +kernel
/-- V41-11, V41-12. -/
theorem test_construct :
    after (fun t => (t.life, t.cfg.blId, t.fb, t.trace.length)) (exec .construct { st0 with fb := [(3, 1)] }) =
      some (.ready, 13, [], 96) := by decide +kernel
theorem test_construct_twice : refusal (exec .construct st) = some .alreadyConstructed := by decide
/-- V41-13. -/
theorem test_not_constructed :
    refusal (exec .reset st0) = some .notConstructed ∧ refusal (exec .flush st0) = some .notConstructed ∧
      refusal (exec (.fbWrite 0 0) st0) = some .notConstructed ∧ refusal (exec .blId st0) = some .notConstructed := by
  decide
/-- V42-2b, V42-8: the frames of a flush, here of a buffer of two bytes that equal a command byte. -/
theorem test_flush_frames :
    frames (evFlush .perByte CmdBytes.default [0x2C, 0x2C]) =
      [⟨some 0, [0x2A]⟩, ⟨some 1, [0x00]⟩, ⟨some 1, [0x28]⟩, ⟨some 1, [0x01]⟩, ⟨some 1, [0x17]⟩,
        ⟨some 0, [0x2B]⟩, ⟨some 1, [0x00]⟩, ⟨some 1, [0x35]⟩, ⟨some 1, [0x00]⟩, ⟨some 1, [0xBB]⟩,
        ⟨some 0, [0x2C]⟩, ⟨some 1, [0x2C, 0x2C]⟩] := by decide
/-- V42-6, V42-9: no promise after a bare reset; SHOW is FLUSH. -/
theorem test_flush_after_reset :
    after (fun t => t.shown) (exec .flush { st with life := .resetting, shown := .image [1] }) = some .undefined ∧
      after (fun t => t.shown) (exec .showFrame { st with life := .resetting, shown := .image [1] }) =
        some .undefined := by decide
/-- V43-2. -/
theorem test_fb_write :
    after (fun t => (t.fb, t.fbRead 64799, t.trace)) (exec (.fbWrite 64799 0x5A) st) =
      some ([(64799, 0x5A)], 0x5A, []) := by decide
/-- V43-3; R193: 64800 is the first address refused. -/
theorem test_fb_write_bad_address :
    refusal (exec (.fbWrite 64800 0) st) = some .badAddress ∧
      refusal (exec (.fbRead 64800) st) = some .badAddress := by decide
/-- V43-4. -/
theorem test_fb_read : after (fun t => t.result) (exec (.fbRead 7) { st with fb := [(7, 2)] }) = some (.byte 2) := by
  decide
/-- V43-10. -/
theorem test_bl_id : after (fun t => (t.result, t.trace)) (exec .blId st) = some (.ident 13, []) := by decide
/-- R65: writing what an unlisted byte reads as removes the entry. -/
theorem test_fb_canonical : after (fun t => t.fb) (exec (.fbWrite 7 0) { st with fb := [(7, 2)] }) = some [] := by
  decide

/-! ## Pixels -/

/-- V43-6a, V43-6b. -/
theorem test_pixel_bytes : pixelBytes .big 0x1234 = [0x12, 0x34] ∧ pixelBytes .little 0x1234 = [0x34, 0x12] := by
  decide
/-- V43-7, V43-8. -/
theorem test_pixel_index : pixelIndex 239 134 = 32399 ∧ pixelIndex 0 1 = 240 ∧
    Pseudo.expand .big (.pixelWriteXy 0 1 0x1234) = [.fbWrite 480 0x12, .fbWrite 481 0x34] := by decide
/-- V43-9. -/
theorem test_rgb565 :
    packRgb565 31 0 0 = 0xF800 ∧ packRgb565 0 63 0 = 0x07E0 ∧ packRgb565 0 0 31 = 0x001F ∧
      packRgb565 31 63 31 = 0xFFFF ∧ packRgb565 0 0 0 = 0x0000 := by decide

/-! ## Steps -/

/-- 30_encoding.md R106: the bytes after a descriptor are the start of the next. -/
theorem test_step_takes_one_descriptor :
    after (fun t => (t.result, t.host)) (step { st with host := [0x06, 0x03] }) = some (.ident 13, [0x03]) := by decide
theorem test_step_takes_one_frame_group :
    after (fun t => (frames t.trace, t.seq)) (step { st with seq := [[0x02C], [0x129]] }) =
      some ([⟨some 0, [0x2C]⟩], [[0x129]]) := by decide
theorem test_step_rests : after (fun t => t.trace) (step st) = some [] := by decide
/-- A flush in progress goes on with its next event (10_state.md R35); the first five are the column command. -/
theorem test_step_in_a_flush :
    stBusy.nextMove = .event stBusy ∧
      stBusy.flushEvents.take 5 = [.cs 1, .dc 0, .cs 0, .tx 0x2A, .cs 1] := by decide
/-- The host's entry: each table row's word is decoded and runs as the first instruction after reset. -/
theorem test_host_words_run_first :
    [(8, 0x00), (8, 0x01), (8, 0x02), (8, 0x03), (32, 0x04), (24, 0x05), (8, 0x06), (16, 0x10), (40, 0x0100000011)].all
      (fun r => isNext (step (State.reset.withFetchWord r.1 r.2))) = true := by decide
theorem test_host_symbols_run_first :
    [0x000, 0x100, 0x02A, 0x02B, 0x02C, 0x036, 0x03A, 0x0B2, 0x0E0, 0x0E1, 0x021, 0x011, 0x029].all
      (fun w => isNext (step (State.reset.withFetchWord 16 w))) = true := by decide
/-- 30_encoding.md R106: SEND_DATA with a length of 0 is the one table word that is refused. -/
theorem test_host_empty_payload : refusal (step (State.reset.withFetchWord 40 0x11)) = some .emptyPayload := by decide

/-! ## Witnesses: operands that meet the hypotheses of each obligation -/

/-- Each refusal of 60_exceptions.md R203 on a state and a request that meet its condition alone, and none. -/
theorem test_witness_RefusalsAreExactlyTheListedOnes :
    refusalsOf .flush stBusy = [.busy] ∧ refusalsOf .flush st0 = [.notConstructed] ∧
      refusalsOf .construct st = [.alreadyConstructed] ∧ refusalsOf (.sendCommand 1) stNoRaw = [.rawNotAdmitted] ∧
      refusalsOf (.fbRead 64800) st = [.badAddress] ∧ refusalsOf (.wireData []) st = [.emptyPayload] ∧
      refusalsOf (.fbWrite 64799 0) stBusy = [] := by decide +kernel
theorem test_witness_StepRunsTheNextDescriptor :
    st.busy = false ∧ st.seq = [] ∧ decodeHost [0x03, 0x06] = .ok .flush [0x06] := by decide
theorem test_witness_StepRunsTheNextFrameGroup :
    st.busy = false ∧ decodeFrame st.par.cmd [0x1AA, 0x1BB] = some (.wireData [0xAA, 0xBB]) := by decide
theorem test_witness_StepRestsOrRefusesByName :
    st.busy = false ∧ st.seq = [] ∧ st.host = [] ∧ decodeHost [0x07] = .invalidOp ∧
      decodeHost [0x05, 0x00] = .truncated ∧ decodeFrame st.par.cmd [0x100, 0x000] = none := by decide
theorem test_witness_ReservedCodesAreRefused :
    st.busy = false ∧ st.seq = [] ∧
      [0x07, 0x0F, 0x12, 0xFF].all (fun n => decide (7 ≤ n ∧ n ≤ 15 ∨ 18 ≤ n)) = true ∧
      [0x06, 0x10, 0x11].all (fun n => decide (¬(7 ≤ n ∧ n ≤ 15 ∨ 18 ≤ n))) = true := by decide
theorem test_witness_ShortDescriptorsAreTruncated :
    decodeHost [0x04, 0, 0] = .truncated ∧ decodeHost [0x05, 0] = .truncated ∧ decodeHost [0x10] = .truncated ∧
      decodeHost [0x11, 0, 0, 0] = .truncated ∧
      decodeHost (0x11 :: bytes32 2 ++ [0xAA]) = .truncated := by decide
theorem test_witness_DescriptorRoundTrip :
    (Instr.sendData [0xAA, 0xBB]).wellFormed params = true ∧
      encode CmdBytes.default (.sendData [0xAA, 0xBB]) =
        .descriptor [0x11, 0x00, 0x00, 0x00, 0x02, 0xAA, 0xBB] := by decide
theorem test_witness_FrameRoundTrip :
    CmdBytes.default.distinct = true ∧ (Instr.initEntry 0xB7 [0x35]).wellFormed params = true ∧
      (Instr.initEntry 0xB7 [0x35]).canonical CmdBytes.default = true ∧
      encode CmdBytes.default (.initEntry 0xB7 [0x35]) = .frame [0x0B7, 0x135] := by decide
theorem test_witness_RomImageRoundTrip : ∀ e ∈ tMin, e.2.length ≤ 255 := by decide
theorem test_witness_CommandTransaction :
    st.busy = false ∧ st.life ≠ .unpowered ∧ st.par.rawBusAccess = true ∧ stNoRaw.busy = false ∧
      stNoRaw.life ≠ .unpowered ∧ stNoRaw.par.rawBusAccess = false := by decide
theorem test_witness_DataTransaction :
    st.busy = false ∧ st.life ≠ .unpowered ∧ st.par.rawBusAccess = true ∧ stNoRaw.busy = false ∧
      stNoRaw.life ≠ .unpowered ∧ stNoRaw.par.rawBusAccess = false := by decide
theorem test_witness_EachTransactionIsOneFrame : (frameScan [.rst 1, .cs 1, .dc 0]).cur = none := by decide
theorem test_witness_FramingChangesOnlyTheFrameCount : ([5] : List Byte).length ≤ 1 ∧ 1 ≤ ([5] : List Byte).length := by
  decide
theorem test_witness_EntryRowsSendCommandThenData : st.busy = false ∧ st.life ≠ .unpowered := by decide
theorem test_witness_WindowRowsSendTheConstants : st.busy = false ∧ st.life ≠ .unpowered := by decide
theorem test_witness_BareRowsSendOneCommandFrame : st.busy = false ∧ st.life ≠ .unpowered := by decide
theorem test_witness_ResetPulse : st.busy = false ∧ st.life ≠ .unpowered := by decide
theorem test_witness_InitializeResult :
    st.busy = false ∧ st.life ≠ .unpowered ∧ st.tableWf = true ∧
      ({ params with initTable := [] } : Params).initTable = [] := by decide
theorem test_witness_ConstructResult :
    (st0.busy = false ∧ st0.life = .unpowered ∧ st0.tableWf = true) ∧ (st.busy = false ∧ st.life ≠ .unpowered) ∧
      Instr.blId ≠ .construct := by decide
theorem test_witness_LifeTransitions :
    exec .blId st = .next { st with result := .ident 13 } ∧ Instr.blId ≠ .construct ∧
      exec .construct st0 = .next st0.constructDriver := ⟨rfl, by decide, rfl⟩
theorem test_witness_InitializationIsDeterministic :
    st.busy = false ∧ st.life ≠ .unpowered ∧ { st with life := Life.resetting, dc := 1 }.busy = false ∧
      { st with life := Life.resetting, dc := 1 }.life ≠ .unpowered ∧
      st.par = { st with life := Life.resetting, dc := 1 }.par := by decide
theorem test_witness_HoldsComeBeforeTheFirstCommand : exec .initPanel st = .next st.initializePanel := rfl
theorem test_witness_InitializationEndsWithThreeBareCommands : wfInit CmdBytes.default 13 tMin = true := by decide
/-- R146: the least table of that shape has the eight entries of clause (a), and a table that has the shape stays itself. -/
theorem test_shaped_table :
    wfInit CmdBytes.default 13 (leastTable CmdBytes.default 13) = true ∧ (leastTable CmdBytes.default 13).length = 8 ∧
      shapedTable CmdBytes.default 13 tMin = tMin ∧
      shapedTable CmdBytes.default 13 [] = leastTable CmdBytes.default 13 := by decide
theorem test_witness_InitializeIsResetThenEveryEntry : st.busy = false ∧ st.life ≠ .unpowered := by decide
theorem test_witness_FlushResult :
    st.busy = false ∧ st.life ≠ .unpowered ∧ st.par.concurrentFbWrite = false := by decide
theorem test_witness_FlushCounts :
    (List.replicate Config.fbSize (0x2C : Byte)).length = Config.fbSize ∧ ([1, 2, 3, 4] : List Byte).length = 4 :=
  ⟨List.length_replicate, rfl⟩
theorem test_witness_PanelKeepsTheImageUntilTheNextFlush :
    isFlush .flush = true ∧ st.par.concurrentFbWrite = false ∧ exec .flush st = .next st.flushNow ∧
      (∀ i ∈ [Instr.fbWrite 0 1, .fbWrite 1 2], writesShown i = false) ∧
      runAll [.fbWrite 0 1, .fbWrite 1 2] st.flushNow = .next ((st.flushNow.fbPut 0 1).fbPut 1 2) := by
  have h : ∀ (a : Half) (b : Byte) (u : State), u.busy = false → u.life = .ready → a.toNat < 64800 →
      exec (.fbWrite a b) u = .next (u.fbPut a.toNat b) := by
    intro a b u hb hl ha
    exact exec_of_verdict (by simp [verdict, hb, hl, addressExists_true ha])
  have hf : st.flushNow.busy = false ∧ st.flushNow.life = .ready := by
    rw [State.flushNow_eq]
    exact ⟨rfl, rfl⟩
  refine ⟨rfl, rfl, exec_of_verdict rfl, by decide, ?_⟩
  generalize st.flushNow = u at hf
  exact (runAll_cons (h 0 1 u hf.1 hf.2 (by decide))).trans
    (runAll_cons (h 1 2 (u.fbPut 0 1) hf.1 hf.2 (by decide)))
theorem test_witness_SecondFlushRepeatsTheFirst :
    st.par.concurrentFbWrite = false ∧ exec .flush st = .next st.flushNow := ⟨rfl, exec_of_verdict rfl⟩
theorem test_witness_FlushIsItsFourRows :
    st.busy = false ∧ st.life ≠ .unpowered ∧ st.par.concurrentFbWrite = false := by decide
/-- At the last address, with no flush in progress and in one. -/
theorem test_witness_WriteStoresOneByte :
    (st.busy = true → st.par.concurrentFbWrite = true) ∧ st.life ≠ .unpowered ∧ (64799 : Half).toNat < 64800 ∧
      stBusy.busy = true ∧ stBusy.par.concurrentFbWrite = true ∧ stBusy.life ≠ .unpowered := by decide
theorem test_witness_ReadReturnsTheByte :
    st.busy = false ∧ st.life ≠ .unpowered ∧ (0 : Half).toNat < 64800 ∧ (64799 : Half).toNat < 64800 := by decide
theorem test_witness_LaterWriteWins :
    st.fbWf = true ∧ exec (.fbWrite 7 1) st = .next (st.fbPut 7 1) ∧
      exec (.fbWrite 7 2) (st.fbPut 7 1) = .next ((st.fbPut 7 1).fbPut 7 2) ∧ st.busy = false :=
  ⟨rfl, exec_of_verdict rfl, exec_of_verdict rfl, rfl⟩
theorem test_witness_RewritingAByteChangesNothing :
    st.busy = false ∧ st.life ≠ .unpowered ∧ (64799 : Half).toNat < 64800 ∧
      { st with fb := [(64799, 1)] }.fbWf = true := by decide
theorem test_witness_BadAddressesAreRefused :
    st.busy = false ∧ st.life ≠ .unpowered ∧ 64800 ≤ (64800 : Half).toNat ∧ 64800 ≤ (65535 : Half).toNat := by decide
theorem test_witness_BacklightIdentityIsReturned :
    st.busy = false ∧ st.life ≠ .unpowered ∧ isNext (exec (.fbWrite 0 1) st) = true := by decide
theorem test_witness_PixelWriteStoresThePixel : 32399 < 32400 ∧ st.busy = false ∧ st.life ≠ .unpowered := by decide
/-- One instruction for each clause. -/
theorem test_witness_AccessMatrix :
    exec .blId st = .next { st with result := .ident 13 } ∧ writesFb .blId = false ∧ writesRst .blId = false ∧
      isQuiet .blId = true ∧ writesShown .blId = false ∧ isFlush .blId = false ∧ Instr.blId ≠ .construct ∧
      exec .reset st = .next st.resetPanel ∧ hasResult .reset = false := by
  refine ⟨rfl, ?_, ?_, ?_, ?_, ?_, ?_, rfl, rfl⟩ <;> decide
theorem test_witness_TraceOnlyGrows :
    Instr.initPanel ≠ .construct ∧ exec .initPanel st = .next st.initializePanel ∧ st.life ≠ .unpowered ∧
      step { st with host := [0x02] } = .next st.initializePanel := by
  refine ⟨by decide, rfl, by decide, rfl⟩
theorem test_witness_EveryOperationIsAdmittedAfterConstruction :
    st.constructedIdle = true ∧ (Instr.sendData [1]).wellFormed st.par = true ∧ Instr.sendData [1] ≠ .construct ∧
      isRaw (.sendData [1]) = true ∧ st.par.rawBusAccess = true := by decide
theorem test_witness_BusyRefusesEveryRequest :
    stBusy.busy = true ∧ (∀ a b, Instr.flush ≠ .fbWrite a b) ∧ { st with busy := true }.busy = true ∧
      { st with busy := true }.par.concurrentFbWrite = false :=
  ⟨rfl, fun _ _ h => (nomatch h), rfl, rfl⟩
theorem test_witness_WireBehaviourIgnoresLife :
    Life.resetting ≠ .unpowered ∧ st.life ≠ .unpowered ∧ exec .initPanel st = .next st.initializePanel :=
  ⟨by decide, by decide, rfl⟩
theorem test_witness_StepKeepsTheMemoryForm :
    { st with host := [0x04, 0xFD, 0x1F, 0x01], fb := [(3, 1)] }.fbWf = true ∧
      isNext (step { st with host := [0x04, 0xFD, 0x1F, 0x01], fb := [(3, 1)] }) = true := by decide
theorem test_witness_StepKeepsShownJustified :
    { st with shown := .image [1], host := [0x03] }.shownJustified ∧
      isNext (step { st with shown := .image [1], host := [0x03] }) = true :=
  ⟨fun _ => rfl, by decide⟩
/-- In Ready with a request for INITIALIZE, and in a flush that has emitted nothing yet. -/
theorem test_witness_StepKeepsTheWireDiscipline :
    ({ st with host := [0x02] }.WireInv ∧ isNext (step { st with host := [0x02] }) = true) ∧
      (stBusy.WireInv ∧ isNext (step stBusy) = true) ∧ stBusy.busy = true ∧ st.busy = false ∧
      st.par.concurrentFbWrite = false := by
  have q : QuietTrace [] := ⟨rfl, rfl, rfl⟩
  have hl : ∀ (s : State), s.trace = [] → (∀ L, s.lineAgrees L) ∧ s.txbAgrees := by
    intro s h
    refine ⟨fun L v hv => ?_, fun b hb => ?_⟩
    · rw [h] at hv
      cases L <;> cases hv
    · rw [h] at hb
      cases hb
  have hn : 0 < (evFlush .perEntry CmdBytes.default (List.replicate Config.fbSize 0)).length := by
    have h := length_evFlush_perEntry CmdBytes.default (List.replicate Config.fbSize 0) List.length_replicate
    generalize (evFlush .perEntry CmdBytes.default (List.replicate Config.fbSize 0)).length = n at h
    omega
  have h1 : { st with host := [0x02] }.WireInv :=
    { idle := fun _ => ⟨rfl, q⟩, inFlush := fun h => absurd h (by decide), lines := (hl _ rfl).1, byte := (hl _ rfl).2 }
  have h2 : stBusy.WireInv :=
    { idle := fun h => absurd h (by decide)
      inFlush := fun _ => ⟨rfl, [], List.replicate Config.fbSize 0, q, List.length_replicate, hn, rfl⟩
      lines := (hl _ rfl).1, byte := (hl _ rfl).2 }
  exact ⟨⟨h1, by decide⟩, ⟨h2, rfl⟩, rfl, rfl, rfl⟩
theorem test_witness_StepKeepsTheConfiguration :
    { st with host := [0x01] }.cfgFixed ∧ { st with host := [0x01] }.tableWf = true ∧
      isNext (step { st with host := [0x01] }) = true :=
  ⟨fun _ => rfl, by decide, by decide⟩
theorem test_witness_ConcurrentFlushBeginsAndGoesOn :
    (stCon.busy = false ∧ stCon.life ≠ .unpowered ∧ stCon.par.concurrentFbWrite = true) ∧
      (stBusy.busy = true ∧ stBusy.par.concurrentFbWrite = true ∧ decodeHost stBusy.host = .truncated) ∧
      decodeHost { stBusy with host := [0x04, 0x00, 0x05, 0xAB] }.host = .ok (.fbWrite 5 0xAB) [] := by decide
/-- The first event, the last event, the last byte of the bulk frame, and a position after the last event. -/
theorem test_witness_FlushEventReadsTheBufferNow :
    stBusy.flushEvents[stBusy.sp]? = some (.cs 1) ∧ stBusy.sp + 1 < stBusy.flushEvents.length ∧
      (∃ e, { stBusy with sp := 64834 }.flushEvents[64834]? = some e) ∧
      64834 + 1 = { stBusy with sp := 64834 }.flushEvents.length ∧
      { stBusy with sp := 64834, life := .resetting }.life ≠ .ready ∧ 64799 < 64800 ∧
      { stBusy with sp := 64835 }.flushEvents[64835]? = none := by
  have h1 : stBusy.flushEvents.length = 64835 := State.length_flushEvents stBusy
  have h2 : { stBusy with sp := 64834 }.flushEvents.length = 64835 := State.length_flushEvents _
  have h3 : { stBusy with sp := 64835 }.flushEvents.length = 64835 := State.length_flushEvents _
  refine ⟨rfl, ?_, ⟨_, List.getElem?_eq_getElem (by rw [h2]; decide)⟩, h2.symm, by decide, by decide,
    List.getElem?_eq_none (by rw [h3])⟩
  rw [h1]
  decide
theorem test_witness_UninterruptedFlushEqualsTheAtomicOne : stCon.busy = false ∧ stCon.sp = 0 := by decide
/-- A write before the first event of a flush and no other: the run has a last state. -/
theorem test_witness_TornFlushShowsValuesHeldMeanwhile :
    stCon.life = .ready ∧
      (some (0, 1) :: List.replicate stCon.flushEvents.length (none : Option (Nat × Byte))).count none =
        stCon.flushEvents.length ∧
      (some (0, 1) :: List.replicate stCon.flushEvents.length (none : Option (Nat × Byte))).getLast? = some none ∧
      ∃ t, (flushRun (some (0, 1) :: List.replicate stCon.flushEvents.length none) stCon.flushStart).getLast? =
        some t := by
  have h : stCon.flushEvents.length = 64834 + 1 := State.length_flushEvents stCon
  rw [h]
  refine ⟨rfl, ?_, ?_, ?_⟩
  · rw [List.count_cons_of_ne (by decide), List.count_replicate_self]
  · rw [List.replicate_succ', ← List.cons_append, List.getLast?_append]
    rfl
  · exact ⟨_, List.getLast?_eq_getLast_of_ne_nil (by unfold flushRun; exact List.cons_ne_nil _ _)⟩

end Sys2Proof.Tests
end

/-! PROOF. Family 10_state: what an admitted instruction, one event of a flush and a whole step change and leave
unchanged (10_state.md R39), and the invariants they keep. -/

namespace Sys2Proof.Machine

/-! ## What an admitted instruction can do -/

/-- The next states of admitted instructions, one case for each column of 10_state.md R39: everything the case does not
name is as it was in `s`. -/
inductive EffectShape (s : State) : Instr → State → Prop
  | construct (c d : Level) (x : Byte) :
    EffectShape s .construct
      { s with
        cfg := s.par.construction, fb := [], cs := c, dc := d, txb := x, rst := high, life := .ready
        shown := .undefined, draws := s.draws + 3, trace := s.initEvents }
  | reset :
    EffectShape s .reset
      { s with
        rst := high, life := .resetting, shown := .undefined, draws := s.draws + 3
        trace := s.trace ++ s.resetEvents }
  | initPanel (c d : Level) (x : Byte) :
    EffectShape s .initPanel
      { s with
        cs := c, dc := d, txb := x, rst := high, life := .ready, shown := .undefined, draws := s.draws + 3
        trace := s.trace ++ s.initEvents }
  | flushStarts {i : Instr} (hi : isFlush i = true) (hc : s.par.concurrentFbWrite = true) :
    EffectShape s i s.flushStart
  | flushes {i : Instr} (hi : isFlush i = true) (hc : s.par.concurrentFbWrite = false) (x : Byte) :
    EffectShape s i { s.onBus high high x s.flushEvents with shown := s.promise s.fbBytes }
  | writes (a : Half) (b : Byte) : EffectShape s (.fbWrite a b) (s.fbPut a.toNat b)
  | answers {i : Instr} (hi : hasResult i = true) (r : Result) : EffectShape s i { s with result := r }
  | sendsRaw {i : Instr} (hi : isRaw i = true) (c d : Level) (x : Byte) (es : List Event) :
    EffectShape s i (s.onBus c d x es).rawUse
  | sends {i : Instr} (hr : writesRst i = false) (hq : isQuiet i = false) (c d : Level) (x : Byte) (es : List Event) :
    EffectShape s i (s.onBus c d x es)

/-- FLUSH once admitted, under either name. -/
theorem EffectShape.flushOp {i : Instr} (hi : isFlush i = true) (s : State) : EffectShape s i s.flushOp := by
  unfold State.flushOp
  split
  · exact .flushStarts hi ‹_›
  · rw [State.flushNow_eq]
    exact .flushes hi (Bool.eq_false_of_not_eq_true ‹_›) _

/-- A command frame of an instruction that is neither a reset nor quiet. -/
theorem EffectShape.sendCommand {i : Instr} (hr : writesRst i = false) (hq : isQuiet i = false) (s : State) (c : Byte) :
    EffectShape s i (s.sendCommand c) := by
  rw [State.sendCommand_eq]
  exact .sends hr hq _ _ _ _

/-- A command with its data, of an instruction that is neither a reset nor quiet. -/
theorem EffectShape.sendCmdWithArgs {i : Instr} (hr : writesRst i = false) (hq : isQuiet i = false) (s : State)
    (c : Byte) (ds : List Byte) : EffectShape s i (s.sendCmdWithArgs c ds) := by
  rw [State.sendCmdWithArgs_eq]
  exact .sends hr hq _ _ _ _

/-- Every effect has its instruction's shape. -/
theorem effect_shape (i : Instr) (s : State) : EffectShape s i (effect i s) := by
  cases i with
  | construct =>
    obtain ⟨c, d, x, h⟩ := s.constructDriver_shape
    rw [effect, h]
    exact .construct c d x
  | reset =>
    rw [effect, State.resetPanel_eq]
    exact .reset
  | initPanel =>
    obtain ⟨c, d, x, h⟩ := s.initializePanel_shape
    rw [effect, h]
    exact .initPanel c d x
  | flush => exact .flushOp rfl s
  | showFrame => exact .flushOp rfl s
  | fbWrite a b => exact .writes a b
  | fbRead a => exact .answers rfl _
  | blId => exact .answers rfl _
  | sendCommand c =>
    rw [effect, State.sendCommand_eq]
    exact .sendsRaw rfl _ _ _ _
  | sendData bs =>
    rw [effect, State.sendData_eq]
    exact .sendsRaw rfl _ _ _ _
  | wireData bs =>
    rw [effect, State.sendData_eq]
    exact .sends rfl rfl _ _ _ _
  | wireCommand | cmdRamwr | cmdPixaddrMode | cmdSleepOut | cmdDisplayOn => exact .sendCommand rfl rfl s _
  | cmdCaset | cmdRaset | cmdMadctl | cmdColmod | cmdPorch | cmdGammaPos | cmdGammaNeg | initEntry =>
    exact .sendCmdWithArgs rfl rfl s _ _

/-- The inversion of exec by shape. -/
theorem exec_shape {i : Instr} {s t : State} (h : exec i s = .next t) : EffectShape s i t := by
  obtain ⟨-, rfl⟩ := exec_next h
  exact effect_shape i s

/-- The two names of a flush. -/
theorem isFlush_iff {i : Instr} : isFlush i = true ↔ i = .flush ∨ i = .showFrame := by
  cases i <;> simp [isFlush]

/-- The two host-issued primitives. -/
theorem isRaw_iff {i : Instr} : isRaw i = true ↔ (∃ c, i = .sendCommand c) ∨ ∃ bs, i = .sendData bs := by
  cases i <;> simp [isRaw]

/-- An admitted instruction and whether a driver exists (41_reset_init.md R155): CONSTRUCT needs that there is none,
every other instruction that there is one. -/
theorem exec_life {i : Instr} {s t : State} (h : exec i s = .next t) : i = .construct ↔ s.life = .unpowered := by
  have hr : refusalsOf i s = [] := by
    rw [← List.head?_eq_none_iff, ← verdict_eq_head]
    exact (exec_next h).1
  simp only [refusalsOf, List.append_eq_nil_iff] at hr
  obtain ⟨⟨⟨⟨⟨-, hnone⟩, hsome⟩, -⟩, -⟩, -⟩ := hr
  constructor
  · intro hi
    by_contra hl
    simp [hi, hl] at hsome
  · intro hl
    by_contra hi
    simp [hi, hl] at hnone

/-! ## What an admitted instruction leaves unchanged (10_state.md R39) -/

section
variable {i : Instr} {s t : State}

theorem EffectShape.par (h : EffectShape s i t) : t.par = s.par := by
  cases h <;> rfl

theorem EffectShape.ports (h : EffectShape s i t) : t.host = s.host ∧ t.seq = s.seq := by
  cases h <;> exact ⟨rfl, rfl⟩

theorem EffectShape.cfg (h : EffectShape s i t) (hi : i ≠ .construct) : t.cfg = s.cfg := by
  cases h with
  | construct => exact absurd rfl hi
  | _ => rfl

theorem EffectShape.fb (h : EffectShape s i t) (hi : writesFb i = false) : t.fb = s.fb := by
  cases h with
  | construct | writes => cases hi
  | _ => rfl

theorem EffectShape.rst (h : EffectShape s i t) (hi : writesRst i = false) : t.rst = s.rst ∧ t.draws = s.draws := by
  cases h with
  | construct | reset | initPanel => cases hi
  | _ => exact ⟨rfl, rfl⟩

theorem EffectShape.quiet (h : EffectShape s i t) (hi : isQuiet i = true) :
    t.cs = s.cs ∧ t.dc = s.dc ∧ t.txb = s.txb ∧ t.trace = s.trace ∧ t.life = s.life := by
  cases h with
  | construct | reset | initPanel => cases hi
  | flushStarts hf | flushes hf => obtain rfl | rfl := isFlush_iff.1 hf <;> cases hi
  | writes | answers => exact ⟨rfl, rfl, rfl, rfl, rfl⟩
  | sendsRaw hr => obtain ⟨_, rfl⟩ | ⟨_, rfl⟩ := isRaw_iff.1 hr <;> cases hi
  | sends _ hq => rw [hi] at hq; cases hq

theorem EffectShape.bus_of_reset (h : EffectShape s .reset t) : t.cs = s.cs ∧ t.dc = s.dc ∧ t.txb = s.txb := by
  cases h with
  | reset => exact ⟨rfl, rfl, rfl⟩
  | flushStarts hi | flushes hi | answers hi | sendsRaw hi | sends hi => cases hi

theorem EffectShape.shown (h : EffectShape s i t) (hi : writesShown i = false) : t.shown = s.shown := by
  cases h with
  | construct | reset | initPanel => cases hi
  | flushes hf => obtain rfl | rfl := isFlush_iff.1 hf <;> cases hi
  | sendsRaw hr => obtain ⟨_, rfl⟩ | ⟨_, rfl⟩ := isRaw_iff.1 hr <;> cases hi
  | flushStarts | writes | answers | sends => rfl

theorem EffectShape.result (h : EffectShape s i t) (hi : hasResult i = false) : t.result = s.result := by
  cases h with
  | answers hr => rw [hi] at hr; cases hr
  | _ => rfl

theorem EffectShape.busy (h : EffectShape s i t) (hi : isFlush i = false) : t.busy = s.busy ∧ t.sp = s.sp := by
  cases h with
  | flushStarts hf => rw [hi] at hf; cases hf
  | _ => exact ⟨rfl, rfl⟩

/-- The trace is appended to by every instruction but CONSTRUCT (10_state.md R32). -/
theorem EffectShape.trace_prefix (h : EffectShape s i t) (hi : i ≠ .construct) : s.trace <+: t.trace := by
  cases h with
  | construct => exact absurd rfl hi
  | reset | initPanel | flushes | sendsRaw | sends => exact List.prefix_append _ _
  | flushStarts | writes | answers => exact List.prefix_rfl

/-! ## The invariants over one instruction -/

/-- What a flush promises is promised in Ready (42_flush.md R176). -/
theorem State.life_of_promise {b : List Byte} (h : s.promise b ≠ .undefined) : s.life = .ready := by
  unfold State.promise at h
  split at h
  · assumption
  · exact absurd rfl h

/-- SHOWN is written as undefined, or as a flush's promise with LIFE left alone, or neither is written
(10_state.md R33). -/
theorem EffectShape.shownJustified (h : EffectShape s i t) (hs : s.shownJustified) : t.shownJustified := by
  cases h with
  | construct | reset | initPanel | sendsRaw => exact fun hne => absurd rfl hne
  | flushes => exact State.life_of_promise
  | flushStarts | writes | answers | sends => exact hs

/-- CONSTRUCT stores the construction parameters, and nothing else writes them (10_state.md R27). -/
theorem cfgFixed_of_exec (h : exec i s = .next t) (hs : s.cfgFixed) : t.cfgFixed := by
  by_cases hi : i = .construct
  · obtain ⟨c, d, x, ht⟩ := s.constructDriver_shape
    rw [(exec_next h).2, hi, effect, ht]
    exact fun _ => rfl
  · intro _
    rw [(exec_shape h).cfg hi, (exec_shape h).par]
    exact hs (mt (exec_life h).2 hi)

/-! ## One event of a flush, and one step -/

/-- An event of a flush is appended to the trace, or the flush ends with the trace as it is. -/
theorem State.tick_trace_prefix (s : State) : s.trace <+: s.tick.trace := by
  obtain ⟨-, h⟩ | ⟨e, -, -, h⟩ | ⟨e, -, -, h⟩ := s.tick_cases
  · rw [h]
    exact List.prefix_rfl
  · rw [h, State.play_eq]
    exact List.prefix_append _ _
  · rw [h, State.play_eq]
    exact List.prefix_append _ _

/-- LIFE is left alone by an event, and SHOWN is kept or the promise of the flush that ends. -/
theorem State.tick_shownJustified (hs : s.shownJustified) : s.tick.shownJustified := by
  obtain ⟨-, -, hlife, -⟩ := s.tick_frame
  intro hne
  rw [hlife]
  obtain h | ⟨b, h⟩ := s.tick_shown
  · exact hs (h ▸ hne)
  · exact State.life_of_promise (h ▸ hne)

/-- The inversion of step, with the words and draws consumed written out: it rests, plays an event of the flush in
progress or runs an instruction. -/
theorem step_shape (h : step s = .next t) :
    t = s ∨ ∃ hs sq n, t = State.tick { s with host := hs, seq := sq, draws := n } ∨
      ∃ i, exec i { s with host := hs, seq := sq, draws := n } = .next t := by
  obtain ⟨-, rfl⟩ | ⟨u, hm, ht⟩ | ⟨i, u, hm, ht⟩ := step_next h
  · exact .inl rfl
  · obtain ⟨hs, sq, n, rfl⟩ := nextMove_frame (.inl hm)
    exact .inr ⟨hs, sq, n, .inl ht⟩
  · obtain ⟨hs, sq, n, rfl⟩ := nextMove_frame (.inr ⟨i, hm⟩)
    exact .inr ⟨hs, sq, n, .inr ⟨i, ht⟩⟩

/-- No step changes the parameters (10_state.md R36). -/
theorem step_par (h : step s = .next t) : t.par = s.par := by
  obtain rfl | ⟨hs, sq, n, rfl | ⟨i, hx⟩⟩ := step_shape h
  · rfl
  · exact (State.tick_frame _).1
  · exact (exec_shape hx).par

theorem step_cfgFixed (h : step s = .next t) (hc : s.cfgFixed) : t.cfgFixed := by
  obtain rfl | ⟨hs, sq, n, rfl | ⟨i, hx⟩⟩ := step_shape h
  · exact hc
  · obtain ⟨hpar, -, hlife, hcfg⟩ := State.tick_frame { s with host := hs, seq := sq, draws := n }
    unfold State.cfgFixed
    rw [hlife, hcfg, hpar]
    exact hc
  · exact cfgFixed_of_exec hx hc

/-! ## The choice of the next move during a flush with CONCURRENT_FB_WRITE -/

theorem State.nextMove_inFlush (hb : s.busy = true) (hc : s.par.concurrentFbWrite = true) :
    s.nextMove = s.moveInFlush := by
  simp [State.nextMove, hb, hc]

/-- Without an FB_WRITE at the HOST's port the flush goes on; any other request waits (10_state.md R34). -/
theorem State.moveInFlush_other (h : ∀ a b rest, decodeHost s.host ≠ .ok (.fbWrite a b) rest) :
    s.moveInFlush = .event s := by
  unfold State.moveInFlush
  split
  · exact absurd ‹_› (h _ _ _)
  · rfl

/-- With an FB_WRITE at the HOST's port a free value says whether it comes first (70_reset_and_hazards.md R241). -/
theorem State.moveInFlush_fbWrite {a : Half} {b : Byte} {rest : List Byte}
    (h : decodeHost s.host = .ok (.fbWrite a b) rest) :
    s.moveInFlush =
      if Config.writerMoves s.draws = true then .run (.fbWrite a b) { s with host := rest, draws := s.draws + 1 }
      else .event { s with draws := s.draws + 1 } := by
  simp only [State.moveInFlush, h]

end

/-! ## One event, by its place in the event list -/

/-- The flush ends: BUSY and SP are cleared, SHOWN is written (10_state.md R34, R35). -/
theorem State.flushEnd_eq (s : State) :
    s.flushEnd = { s with sp := 0, busy := false, shown := s.flushEnd.shown } := rfl

/-- With no event at SP the flush only ends. -/
theorem State.tick_none {s : State} (h : s.flushEvents[s.sp]? = none) : s.tick = s.flushEnd := by
  simp only [State.tick, h]

/-- An event that is not the last. -/
theorem State.tick_some {s : State} {e : Event} (h : s.flushEvents[s.sp]? = some e)
    (hlt : s.sp + 1 < s.flushEvents.length) : s.tick = { s.play e with sp := s.sp + 1 } := by
  simp only [State.tick, h, if_neg hlt.ne]

/-- The last event. -/
theorem State.tick_last {s : State} {e : Event} (h : s.flushEvents[s.sp]? = some e)
    (hlast : s.sp + 1 = s.flushEvents.length) : s.tick = State.flushEnd { s.play e with sp := s.sp + 1 } := by
  simp only [State.tick, h, if_pos hlast]

/-- TX number `i` of the bulk frame carries `FB[i]` (70_reset_and_hazards.md R241). -/
theorem State.flushEvents_bulk (s : State) {i : Nat} (h : i < Config.fbSize) :
    s.flushEvents[bulkStart s.par.argFraming + i]? = some (.tx (s.fbRead i)) := by
  have hi : i < s.fbBytes.length := by rwa [State.length_fbBytes]
  have hbyte : s.fbBytes[i] = s.fbRead i := by
    rw [List.getElem_eq_iff, State.fbBytes, State.getElem?_memRead _ _ _ _ h, Nat.zero_add]
  rw [← hbyte]
  exact evFlush_bulk _ _ _ _ hi

/-! ## The obligations of 10_state -/

/-- Settles O53: an instruction and an event of a flush keep it, and choosing the next move writes neither LIFE nor
SHOWN. -/
theorem stepKeepsShownJustified : Obligations.StepKeepsShownJustified := by
  intro s t hs h
  obtain rfl | ⟨hw, sq, n, rfl | ⟨i, hx⟩⟩ := step_shape h
  · exact hs
  · exact State.tick_shownJustified hs
  · exact (exec_shape hx).shownJustified hs

/-- Settles O47: the rows of R39, one lemma each. -/
theorem accessMatrix : Obligations.AccessMatrix := by
  intro i s t h
  have hs := exec_shape h
  exact ⟨hs.par, hs.ports.1, hs.ports.2, hs.cfg, fun hi => ⟨hs.fb hi, State.fbRead_congr s t hs.par (hs.fb hi)⟩,
    hs.rst, hs.quiet, fun hi => EffectShape.bus_of_reset (hi ▸ hs), hs.shown, hs.result, hs.busy⟩

/-- Settles O48: a constructed machine admits no CONSTRUCT, so its steps append. -/
theorem traceOnlyGrows : Obligations.TraceOnlyGrows := by
  refine ⟨fun i s t hi h => (exec_shape h).trace_prefix hi, fun s t hl h => ?_⟩
  obtain rfl | ⟨hw, sq, n, rfl | ⟨i, hx⟩⟩ := step_shape h
  · exact List.prefix_rfl
  · exact State.tick_trace_prefix { s with host := hw, seq := sq, draws := n }
  · exact (exec_shape hx).trace_prefix (mt (exec_life hx).1 hl)

/-- Settles O55: the table is one of the parameters, which no step changes. -/
theorem stepKeepsTheConfiguration : Obligations.StepKeepsTheConfiguration := by
  intro s t h
  refine ⟨step_cfgFixed h, fun hw => ?_, step_par h⟩
  unfold State.tableWf
  rwa [step_par h]

/-- Settles O57: a flush in progress chooses its move by what the HOST's port holds. -/
theorem concurrentFlushBeginsAndGoesOn : Obligations.ConcurrentFlushBeginsAndGoesOn := by
  refine ⟨fun s hb hl hc => ?_, fun s hb hc hno => ?_, fun s a b rest hb hc hw => ?_⟩
  · rw [exec_of_verdict (i := .flush) (gateVerdict_none hb hl), effect, State.flushOp, if_pos hc]
    rfl
  · rw [step, State.nextMove_inFlush hb hc, State.moveInFlush_other hno]
  · rw [step, State.nextMove_inFlush hb hc, State.moveInFlush_fbWrite hw]
    split_ifs
    · exact .inl rfl
    · exact .inr rfl

/-- Settles O58: the three places SP can have in the event list, and the bytes of its bulk frame. -/
theorem flushEventReadsTheBufferNow : Obligations.FlushEventReadsTheBufferNow := by
  refine ⟨fun s e he => ⟨fun hlt => ?_, fun hlast => ⟨?_, fun hl => ?_⟩⟩, fun s hnone => ?_,
    fun s i hi => s.flushEvents_bulk hi⟩
  · rw [State.tick_some he hlt, State.play_eq]
  · rw [State.tick_last he hlast, State.play_eq]
    rfl
  · rw [State.tick_last he hlast, State.play_eq]
    exact if_neg hl
  · rw [State.tick_none hnone]
    exact s.flushEnd_eq

/-- Settles O1: the power-on state as R38 and the defaults of R10 give it. -/
theorem powerOnStateIsUnpoweredAndSilent : Obligations.PowerOnStateIsUnpoweredAndSilent :=
  ⟨rfl, rfl, rfl, rfl, rfl, rfl, rfl, rfl, rfl⟩

/-- Settles O2: the constants are read through the state but are not in it. -/
theorem windowConstantsAreHardwired : Obligations.WindowConstantsAreHardwired := by
  intro s
  refine ⟨rfl, rfl, rfl, rfl, win_columns, win_rows, rfl, rfl, rfl, rfl, rfl, rfl, rfl⟩

/-- Before any event the trace is quiet and the registers agree with it (10_state.md R38). -/
theorem State.reset_wireInv : State.reset.WireInv where
  idle := fun _ => ⟨rfl, rfl, rfl, rfl⟩
  inFlush := nofun
  lines := fun L v h => by cases L <;> cases h
  byte := nofun

/-- Settles O56: the buffer and the trace are empty, SHOWN undefined and no driver exists; the table has its shape by
construction. -/
theorem powerOnMeetsTheInvariants : Obligations.PowerOnMeetsTheInvariants :=
  ⟨State.reset_fbWf, fun h => absurd rfl h, State.reset_wireInv, fun h => absurd rfl h, State.reset_tableWf⟩

end Sys2Proof.Machine

/-! PROOF. Family 20_memory: every step keeps the frame buffer in canonical form, with the addresses R61 gives it. -/

namespace Sys2Proof.Machine

section
variable {i : Instr} {s t : State}

/-- Only an address of the buffer is written (20_memory.md R61, 43_buffer_access.md R193). -/
theorem address_lt_of_exec_fbWrite {a : Half} {b : Byte} (h : exec (.fbWrite a b) s = .next t) :
    a.toNat < Config.fbSize := by
  by_contra hge
  have hno : addressExists a = false := addressExists_false (Nat.not_lt.1 hge)
  have hv : verdict (.fbWrite a b) s = none := (exec_next h).1
  simp only [verdict, hno, if_true] at hv
  split at hv
  · cases hv
  · split at hv <;> cases hv

/-- CONSTRUCT empties the list of differing bytes, FB_WRITE puts one byte inside the buffer, and no other instruction
writes the buffer or its initial contents. -/
theorem exec_fbWf (h : exec i s = .next t) (hs : s.fbWf = true) : t.fbWf = true := by
  cases exec_shape h with
  | construct => rfl
  | writes a b => exact s.fbWf_fbPut a.toNat b (address_lt_of_exec_fbWrite h) hs
  | _ => exact hs

/-- An event of a flush reads the buffer and does not write it. -/
theorem State.tick_fbWf (s : State) : s.tick.fbWf = s.fbWf := by
  obtain ⟨hpar, hfb, -⟩ := s.tick_frame
  exact State.fbWf_congr hpar hfb

end

/-- Settles O52: a step rests, plays an event of a flush or runs an instruction, and taking the next move writes neither
the buffer nor the parameters. -/
theorem stepKeepsTheMemoryForm : Obligations.StepKeepsTheMemoryForm := by
  intro s t hs h
  obtain rfl | ⟨hw, sq, n, rfl | ⟨i, hx⟩⟩ := step_shape h
  · exact hs
  · rw [State.tick_fbWf]
    exact hs
  · exact exec_fbWf hx hs

end Sys2Proof.Machine

/-! PROOF. Family 30_encoding: the decoder against the encoder, for host descriptors, frame groups and ROM images; what
the panel reads of a flush; a pixel written as two bytes; and the steps that run decoded words. -/

namespace Sys2Proof

/-! ## Host descriptors (30_encoding.md R102 to R106) -/

/-- The four codes with operands leave their bytes to their formats (30_encoding.md R103). -/
theorem decodeHost_h1 (rest : List Byte) : decodeHost (0x04 :: rest) = decodeH1 rest := rfl
theorem decodeHost_h2 (rest : List Byte) : decodeHost (0x05 :: rest) = decodeH2 rest := rfl
theorem decodeHost_h3 (rest : List Byte) : decodeHost (0x10 :: rest) = decodeH3 rest := rfl
theorem decodeHost_h4 (rest : List Byte) : decodeHost (0x11 :: rest) = decodeH4 rest := rfl

/-- The codes from 0x07 to 0x0F and from 0x12 are reserved (30_encoding.md R105). -/
theorem decodeHost_reserved {op : Byte} (h : 0x07 ≤ op.toNat ∧ op.toNat ≤ 0x0F ∨ 0x12 ≤ op.toNat)
    (rest : List Byte) : decodeHost (op :: rest) = .invalidOp := by
  rw [decodeHost]
  split
  case h_10 => rfl
  all_goals omega

/-- The fields of format H1 and the bytes after them. -/
theorem decodeH1_bytes (a : Half) (v : Byte) (rest : List Byte) :
    decodeH1 (bytes16 a ++ [v] ++ rest) = .ok (.fbWrite a v) rest := by
  simp [bytes16, decodeH1]

/-- The field of format H2 and the bytes after it. -/
theorem decodeH2_bytes (a : Half) (rest : List Byte) : decodeH2 (bytes16 a ++ rest) = .ok (.fbRead a) rest := by
  simp [bytes16, decodeH2]

/-- Format H4 once its length is read: the payload, or a verdict where bytes are missing. -/
theorem decodeH4_bytes32 (n : BitVec 32) (bs : List Byte) :
    decodeH4 (bytes32 n ++ bs) =
      if bs.length < n.toNat then .truncated else .ok (.sendData (bs.take n.toNat)) (bs.drop n.toNat) := by
  simp only [bytes32, List.cons_append, List.nil_append, decodeH4, be32_bytes]

/-- A payload of admitted length and the bytes after it (30_encoding.md R104). -/
theorem decodeH4_payload {bs : List Byte} (h : bs.length ≤ Config.maxPayload) (rest : List Byte) :
    decodeH4 (bytes32 (BitVec.ofNat 32 bs.length) ++ bs ++ rest) = .ok (.sendData bs) rest := by
  have hlen : (BitVec.ofNat 32 bs.length).toNat = bs.length :=
    Nat.mod_eq_of_lt (Nat.lt_of_le_of_lt h (by decide))
  rw [List.append_assoc, decodeH4_bytes32, hlen, if_neg (by simp), List.take_left, List.drop_left]

theorem decodeH1_short : ∀ {rest : List Byte}, rest.length < 3 → decodeH1 rest = .truncated
  | [], _ | [_], _ | [_, _], _ => rfl
  | _ :: _ :: _ :: _, h => absurd h (by simp)

theorem decodeH2_short : ∀ {rest : List Byte}, rest.length < 2 → decodeH2 rest = .truncated
  | [], _ | [_], _ => rfl
  | _ :: _ :: _, h => absurd h (by simp)

theorem decodeH3_short : ∀ {rest : List Byte}, rest.length < 1 → decodeH3 rest = .truncated
  | [], _ => rfl
  | _ :: _, h => absurd h (by simp)

theorem decodeH4_short : ∀ {rest : List Byte}, rest.length < 4 → decodeH4 rest = .truncated
  | [], _ | [_], _ | [_, _], _ | [_, _, _], _ => rfl
  | _ :: _ :: _ :: _ :: _, h => absurd h (by simp)

/-! ## Frame groups (30_encoding.md R91, R96, R97) -/

theorem CmdName.mem_all (n : CmdName) : n ∈ CmdName.all := by
  cases n <;> decide

/-- A byte's name has that byte. -/
theorem CmdBytes.byteOf_of_nameOf {b : CmdBytes} {c : Byte} {n : CmdName} (h : b.nameOf c = some n) :
    b.byteOf n = c := by
  unfold CmdBytes.nameOf at h
  simpa using List.find?_some h

/-- With pairwise different command bytes the name of a byte is the one it was taken from (30_encoding.md R111). -/
theorem CmdBytes.nameOf_byteOf {b : CmdBytes} (hd : b.distinct = true) (n : CmdName) :
    b.nameOf (b.byteOf n) = some n := by
  have hnodup : (CmdName.all.map b.byteOf).Nodup := of_decide_eq_true hd
  obtain ⟨m, hm⟩ : ∃ m, b.nameOf (b.byteOf n) = some m :=
    Option.isSome_iff_exists.1 (List.find?_isSome.2 ⟨n, n.mem_all, beq_self_eq_true _⟩)
  rw [hm, List.inj_on_of_nodup_map hnodup m.mem_all n.mem_all (CmdBytes.byteOf_of_nameOf hm)]

/-- Has the row of a named command data bytes as its operand (30_encoding.md R97; 41_reset_init.md R147, R148)? -/
def CmdName.takesData : CmdName → Bool
  | .madctl | .colmod | .porch | .gammaPos | .gammaNeg => true
  | _ => false

/-- The row of a named command, with its data bytes where it takes any. -/
def CmdName.row : CmdName → List Byte → Instr
  | .caset, _ => .cmdCaset
  | .raset, _ => .cmdRaset
  | .ramwr, _ => .cmdRamwr
  | .madctl, ds => .cmdMadctl ds
  | .colmod, ds => .cmdColmod ds
  | .porch, ds => .cmdPorch ds
  | .gammaPos, ds => .cmdGammaPos ds
  | .gammaNeg, ds => .cmdGammaNeg ds
  | .pixaddrMode, _ => .cmdPixaddrMode
  | .sleepOut, _ => .cmdSleepOut
  | .displayOn, _ => .cmdDisplayOn

section
variable {b : CmdBytes} {c : Byte} {ds : List Byte} {n : CmdName}

/-- A named byte is its row, unless data bytes follow a command that takes none. -/
theorem nameCommand_named (hn : b.nameOf c = some n) (hds : n.takesData = true ∨ ds = []) :
    nameCommand b c ds = n.row ds := by
  rw [nameCommand, hn]
  cases n with
  | madctl | colmod | porch | gammaPos | gammaNeg => rfl
  | _ => exact if_pos (hds.resolve_left nofun)

/-- A byte that no named command has, alone, is a command frame. -/
theorem nameCommand_unnamed (hn : b.nameOf c = none) : nameCommand b c [] = .wireCommand c := by
  rw [nameCommand, hn]
  rfl

/-- Data bytes after any other byte make a table entry: after one that is unnamed, or whose row takes no data. -/
theorem nameCommand_entry (h : (Instr.initEntry c ds).canonical b = true) : nameCommand b c ds = .initEntry c ds := by
  rw [Instr.canonical, Bool.and_eq_true, decide_eq_true_eq] at h
  obtain ⟨hds, hrow⟩ := h
  rw [nameCommand]
  cases hn : b.nameOf c with
  | none => exact if_neg hds
  | some n =>
    rw [hn] at hrow
    cases n with
    | madctl | colmod | porch | gammaPos | gammaNeg => cases hrow
    | _ => exact if_neg hds

/-- The group of a named command decodes to its row. -/
theorem decodeFrame_named (hd : b.distinct = true) (n : CmdName) (hds : n.takesData = true ∨ ds = []) :
    decodeFrame b (frameGroup (b.byteOf n) ds) = some (n.row ds) := by
  rw [decodeFrame_frameGroup, nameCommand_named (CmdBytes.nameOf_byteOf hd n) hds]

/-- The group of one or more data symbols decodes to their data frame. -/
theorem decodeFrame_data (hds : ds ≠ []) : decodeFrame b (ds.map (mkSymbol high)) = some (.wireData ds) := by
  obtain ⟨d, ds, rfl⟩ := List.exists_cons_of_ne_nil hds
  rw [List.map_cons, decodeFrame, all_dc_mkSymbol, if_pos rfl, symbolDc_mkSymbol, if_neg (by decide), List.map_cons,
    symbolByte_mkSymbol, map_symbolByte_mkSymbol]

end

/-- Settles O11: a descriptor without operands is its code; the other formats are read back field by field. -/
theorem descriptorRoundTrip : Obligations.DescriptorRoundTrip := by
  intro p b i bs rest hwf henc
  cases i with
  | construct | reset | initPanel | flush | showFrame | blId | sendCommand =>
    cases henc
    rfl
  | fbWrite a v =>
    cases henc
    exact (decodeHost_h1 _).trans (decodeH1_bytes a v rest)
  | fbRead a =>
    cases henc
    exact (decodeHost_h2 _).trans (decodeH2_bytes a rest)
  | sendData ds =>
    cases henc
    rw [Instr.wellFormed, Bool.and_eq_true, decide_eq_true_eq, decide_eq_true_eq] at hwf
    exact (decodeHost_h4 _).trans (decodeH4_payload hwf.2 rest)
  | _ => cases henc

/-- Settles O12: a group begins with a named command's byte, with another byte, or with data. -/
theorem frameRoundTrip : Obligations.FrameRoundTrip := by
  intro p b i ss hd hwf hcan henc
  cases i with
  | construct | reset | initPanel | flush | showFrame | fbWrite | fbRead | blId | sendCommand | sendData => cases henc
  | wireCommand c =>
    cases henc
    rw [decodeFrame_frameGroup, nameCommand_unnamed (Option.isNone_iff_eq_none.1 hcan)]
  | wireData bs =>
    cases henc
    exact decodeFrame_data (List.ne_nil_of_length_pos (of_decide_eq_true hwf))
  | initEntry c ds =>
    cases henc
    rw [decodeFrame_frameGroup, nameCommand_entry hcan]
  | cmdCaset => cases henc; exact decodeFrame_named hd .caset (.inr rfl)
  | cmdRaset => cases henc; exact decodeFrame_named hd .raset (.inr rfl)
  | cmdRamwr => cases henc; exact decodeFrame_named hd .ramwr (.inr rfl)
  | cmdMadctl ds => cases henc; exact decodeFrame_named hd .madctl (.inl rfl)
  | cmdColmod ds => cases henc; exact decodeFrame_named hd .colmod (.inl rfl)
  | cmdPorch ds => cases henc; exact decodeFrame_named hd .porch (.inl rfl)
  | cmdGammaPos ds => cases henc; exact decodeFrame_named hd .gammaPos (.inl rfl)
  | cmdGammaNeg ds => cases henc; exact decodeFrame_named hd .gammaNeg (.inl rfl)
  | cmdPixaddrMode => cases henc; exact decodeFrame_named hd .pixaddrMode (.inr rfl)
  | cmdSleepOut => cases henc; exact decodeFrame_named hd .sleepOut (.inr rfl)
  | cmdDisplayOn => cases henc; exact decodeFrame_named hd .displayOn (.inr rfl)

/-- Settles O10: each format asks for its bytes, and H4 then for as many as its length says. -/
theorem shortDescriptorsAreTruncated : Obligations.ShortDescriptorsAreTruncated := by
  intro rest
  refine ⟨decodeH1_short, decodeH2_short, decodeH3_short, decodeH4_short, fun n h => ?_⟩
  calc decodeHost (0x11 :: bytes32 n ++ rest)
    _ = decodeH4 (bytes32 n ++ rest) := decodeHost_h4 _
    _ = .truncated := by rw [decodeH4_bytes32, if_pos h]

/-! ## ROM images (30_encoding.md R98) -/

/-- One entry and the image after it. -/
theorem decodeRomFuel_entry {ds : List Byte} (h : ds.length ≤ 255) (fuel : Nat) (c : Byte) (rest : List Byte) :
    decodeRomFuel (fuel + 1) (c :: BitVec.ofNat 8 ds.length :: ds ++ rest) =
      (decodeRomFuel fuel rest).map (fun t => (c, ds) :: t) := by
  have hlen : (BitVec.ofNat 8 ds.length).toNat = ds.length := Nat.mod_eq_of_lt (Nat.lt_succ_of_le h)
  rw [List.cons_append, List.cons_append, decodeRomFuel, hlen, if_neg (by simp), List.take_left, List.drop_left]

/-- An image is read back with any fuel that covers its bytes. -/
theorem decodeRomFuel_encodeRom : ∀ (t : InitTable) (fuel : Nat), (∀ e ∈ t, e.2.length ≤ 255) →
    (encodeRom t).length ≤ fuel → decodeRomFuel fuel (encodeRom t) = some t
  | [], _, _, _ => by rw [encodeRom, decodeRomFuel]
  | (_, _) :: _, 0, _, hfuel => by simp [encodeRom] at hfuel
  | (c, ds) :: t, fuel + 1, hlen, hfuel => by
    obtain ⟨hds, ht⟩ := List.forall_mem_cons.1 hlen
    have hrest : (encodeRom t).length ≤ fuel := by
      simp only [encodeRom, List.cons_append, List.length_cons, List.length_append] at hfuel
      omega
    rw [encodeRom, decodeRomFuel_entry hds, decodeRomFuel_encodeRom t fuel ht hrest, Option.map_some]

/-- Settles O14: the fuel is the image's own length. -/
theorem romImageRoundTrip : Obligations.RomImageRoundTrip :=
  fun t ht => decodeRomFuel_encodeRom t _ ht le_rfl

/-- Settles O9: the words of 95_test_vectors.md, read one by one. -/
theorem decodedWordsOfEveryFamily : Obligations.DecodedWordsOfEveryFamily := by
  unfold Obligations.DecodedWordsOfEveryFamily
  decide

end Sys2Proof

namespace Sys2Proof.Machine

/-! ## What the panel reads (30_encoding.md R111) -/

/-- A data frame, which belongs to the most recent command. -/
def Frame.isData (g : Frame) : Bool := decide (g.dc = some high)

/-- A command frame is read with the data frames that follow it. -/
theorem commandsOf_command (c : Byte) (fs : List Frame) :
    commandsOf (⟨some low, [c]⟩ :: fs) = (c, (fs.takeWhile Frame.isData).flatMap Frame.bytes) :: commandsOf fs := rfl

/-- A data frame begins no command. -/
theorem commandsOf_data (bs : List Byte) (fs : List Frame) : commandsOf (⟨some high, bs⟩ :: fs) = commandsOf fs := by
  rw [commandsOf]
  split
  · rename_i v c hv _
    obtain rfl : high = v := Option.some.inj hv
    exact if_neg (by decide)
  · rfl

/-- Every frame of a command's data is a data frame. -/
theorem dc_of_mem_argFrames {f : ArgFraming} {ds : List Byte} {g : Frame} (h : g ∈ argFrames f ds) :
    g.dc = some high := by
  unfold argFrames at h
  split at h
  · cases h
  · cases f with
    | perEntry => rw [List.mem_singleton.1 h]
    | perByte =>
      obtain ⟨d, -, rfl⟩ := List.mem_map.1 h
      rfl

/-- The frames of a command's data carry its data under either framing (40_bus_transactions.md R133). -/
theorem flatMap_bytes_argFrames (f : ArgFraming) (ds : List Byte) : (argFrames f ds).flatMap Frame.bytes = ds := by
  unfold argFrames
  split
  case isTrue h => rw [h, List.flatMap_nil]
  case isFalse =>
    cases f with
    | perEntry => exact List.append_nil ds
    | perByte => simp [List.flatMap_map]

/-- Data frames in front of a list begin no command. -/
theorem commandsOf_append_of_data {gs : List Frame} (h : ∀ g ∈ gs, g.dc = some high) (fs : List Frame) :
    commandsOf (gs ++ fs) = commandsOf fs := by
  induction gs with
  | nil => rfl
  | cons g gs ih =>
    obtain ⟨hg, hgs⟩ := List.forall_mem_cons.1 h
    obtain ⟨dc, bs⟩ := g
    obtain rfl : dc = some high := hg
    rw [List.cons_append, commandsOf_data, ih hgs]

/-- An entry's frames, with no data frame after them, read as its command with its data. -/
theorem commandsOf_entry (f : ArgFraming) (c : Byte) (ds : List Byte) {fs : List Frame}
    (hfs : fs.takeWhile Frame.isData = []) :
    commandsOf (⟨some low, [c]⟩ :: argFrames f ds ++ fs) = (c, ds) :: commandsOf fs := by
  have hdata : ∀ g ∈ argFrames f ds, g.isData = true := fun g hg => decide_eq_true (dc_of_mem_argFrames hg)
  rw [List.cons_append, commandsOf_command, List.takeWhile_append_of_pos hdata, hfs, List.append_nil,
    flatMap_bytes_argFrames, commandsOf_append_of_data (fun _ => dc_of_mem_argFrames)]

/-- Settles O36: the two window commands are entries, each with a command frame after it, and the bulk frame is the data
of the third command. -/
theorem panelReadsThreeCommandsOfAFlush : Obligations.PanelReadsThreeCommandsOfAFlush := by
  intro f b fb
  rw [frames_evFlush, List.append_assoc, commandsOf_entry _ _ _ rfl, commandsOf_entry _ _ _ rfl, commandsOf_command,
    commandsOf_data]
  exact congrArg (fun ds => [_, _, (b.ramwr, ds)]) (List.append_nil fb)

/-! ## A pixel as two bytes (30_encoding.md R110) -/

section
variable {s : State}

/-- An admitted FB_WRITE, also during a flush with CONCURRENT_FB_WRITE (43_buffer_access.md R191,
70_reset_and_hazards.md R241). -/
theorem exec_fbWrite {a : Half} (b : Byte) (hb : s.busy = true → s.par.concurrentFbWrite = true)
    (hl : s.life ≠ .unpowered) (ha : a.toNat < 64800) : exec (.fbWrite a b) s = .next (s.fbPut a.toNat b) := by
  have hbusy : ¬(s.busy = true ∧ s.par.concurrentFbWrite = false) := fun ⟨h, hc⟩ => by simp [hb h] at hc
  exact exec_of_verdict (by rw [verdict, if_neg hbusy, if_neg hl, if_neg (by simp [addressExists_true ha])])

/-- The same for an address given as a number. -/
theorem exec_fbWrite_ofNat {a : Nat} (b : Byte) (hb : s.busy = false) (hl : s.life ≠ .unpowered) (ha : a < 64800) :
    exec (.fbWrite (BitVec.ofNat 16 a) b) s = .next (s.fbPut a b) := by
  have haddr : (BitVec.ofNat 16 a).toNat = a := Nat.mod_eq_of_lt (by omega)
  rw [exec_fbWrite b (by simp [hb]) hl (by rwa [haddr]), haddr]

/-- The two writes PIXEL_WRITE expands to, and what they leave in the buffer. -/
theorem runAll_pixelWrite {o : PixelByteOrder} {k : Nat} {p : Half} {x y : Byte} (hk : k < 32400) (hb : s.busy = false)
    (hl : s.life ≠ .unpowered) (ho : pixelBytes o p = [x, y]) :
    ∃ t, runAll (Pseudo.expand o (.pixelWrite k p)) s = .next t ∧ t.fbRead (2 * k) = x ∧ t.fbRead (2 * k + 1) = y ∧
      (∀ a, a ≠ 2 * k → a ≠ 2 * k + 1 → t.fbRead a = s.fbRead a) ∧ t = { s with fb := t.fb } := by
  refine ⟨(s.fbPut (2 * k) x).fbPut (2 * k + 1) y, ?_, ?_, ?_, fun a h0 h1 => ?_, rfl⟩
  · rw [Pseudo.expand, pixelWriteOps, ho]
    exact (runAll_cons (exec_fbWrite_ofNat x hb hl (by omega))).trans
      (runAll_cons (exec_fbWrite_ofNat y hb hl (by omega)))
  · rw [State.fbRead_fbPut, if_neg (by omega), State.fbRead_fbPut, if_pos rfl]
  · rw [State.fbRead_fbPut, if_pos rfl]
  · rw [State.fbRead_fbPut, if_neg h1, State.fbRead_fbPut, if_neg h0]

end

/-- Settles O46: the byte order says which byte goes to which of the two addresses. -/
theorem pixelWriteStoresThePixel : Obligations.PixelWriteStoresThePixel := by
  intro o k p s hk hb hl
  cases o with
  | big =>
    obtain ⟨t, hrun, h0, h1, hother⟩ := runAll_pixelWrite (p := p) hk hb hl (o := .big) rfl
    exact ⟨t, hrun, fun _ => ⟨h0, h1⟩, nofun, hother⟩
  | little =>
    obtain ⟨t, hrun, h0, h1, hother⟩ := runAll_pixelWrite (p := p) hk hb hl (o := .little) rfl
    exact ⟨t, hrun, nofun, fun _ => ⟨h0, h1⟩, hother⟩

/-! ## Steps of an idle machine (30_encoding.md R106, R107) -/

section
variable {s : State}

/-- With no operation in progress the next move is a port's. -/
theorem State.nextMove_idle (hb : s.busy = false) : s.nextMove = s.moveIdle := by
  simp [State.nextMove, hb]

/-- A group at the sequencer's port comes first. -/
theorem State.moveIdle_seq {i : Instr} {g : List Symbol} {gs : List (List Symbol)} (hs : s.seq = g :: gs)
    (hd : decodeFrame s.par.cmd g = some i) : s.moveIdle = .run i { s with seq := gs } := by
  simp only [State.moveIdle, hs, hd]

/-- With nothing at the sequencer's port the HOST's next descriptor is taken. -/
theorem State.moveIdle_host {i : Instr} {rest : List Byte} (hs : s.seq = []) (hd : decodeHost s.host = .ok i rest) :
    s.moveIdle = .run i { s with host := rest } := by
  have hh : s.host ≠ [] := fun h => by rw [h] at hd; cases hd
  simp only [State.moveIdle, hs, if_neg hh, hd]

/-- The same for a reserved code, which is refused (30_encoding.md R105). -/
theorem State.moveIdle_invalidOp (hs : s.seq = []) (hd : decodeHost s.host = .invalidOp) :
    s.moveIdle = .refuse .invalidOp := by
  have hh : s.host ≠ [] := fun h => by rw [h] at hd; cases hd
  simp only [State.moveIdle, hs, if_neg hh, hd]

end

/-- Settles O4: with no group at the sequencer's port the HOST's descriptor is the next move. -/
theorem stepRunsTheNextDescriptor : Obligations.StepRunsTheNextDescriptor := by
  intro s i rest hb hs hd
  rw [step, State.nextMove_idle hb, State.moveIdle_host hs hd]

/-- Settles O5: the sequencer's port comes first. -/
theorem stepRunsTheNextFrameGroup : Obligations.StepRunsTheNextFrameGroup := by
  intro s i g gs hb hs hd
  rw [step, State.nextMove_idle hb, State.moveIdle_seq hs hd]

/-- Settles O7: the decoder's verdict on a reserved code is the step's. -/
theorem reservedCodesAreRefused : Obligations.ReservedCodesAreRefused := by
  intro s op rest hb hs hw hop
  have hd : decodeHost s.host = .invalidOp := hw ▸ decodeHost_reserved hop rest
  rw [step, State.nextMove_idle hb, State.moveIdle_invalidOp hs hd]

end Sys2Proof.Machine

/-! PROOF. Family 40_bus_transactions: every step keeps the wire's discipline (40_bus_transactions.md R126, R132), a flush
in progress included; what each transaction does and how its trace reads back (R124, R125, R127 to R133). -/

namespace Sys2Proof.Machine

/-! ## Events that leave a quiet trace quiet -/

/-- Appended to a trace between operations, these events leave it so: they are whole transactions and holds. -/
def KeepsQuiet (es : List Event) : Prop := ∀ ⦃t : List Event⦄, QuietTrace t → QuietTrace (t ++ es)

theorem KeepsQuiet.nil : KeepsQuiet [] := fun t h => by rwa [List.append_nil]

theorem KeepsQuiet.append {es fs : List Event} (he : KeepsQuiet es) (hf : KeepsQuiet fs) : KeepsQuiet (es ++ fs) :=
  fun t h => by
    rw [← List.append_assoc]
    exact hf (he h)

theorem KeepsQuiet.flatMap {α : Type} {f : α → List Event} (h : ∀ a, KeepsQuiet (f a)) (as : List α) :
    KeepsQuiet (as.flatMap f) := by
  induction as with
  | nil => exact .nil
  | cons a as ih => exact (h a).append ih

/-- A command transaction is one frame of format WC (30_encoding.md R91). -/
theorem KeepsQuiet.evCmd (c : Byte) : KeepsQuiet (evCmd c) := fun _ h =>
  h.append (fs := [⟨some low, [c]⟩]) (fun v _ => ⟨some high, discipline_evCmd v c, by decide⟩)
    (fun k hk => by rw [foldl_next_evCmd k c hk]; exact ⟨rfl, rfl⟩) rfl

/-- A data transaction of one or more bytes is one frame of format WD (30_encoding.md R91). -/
theorem KeepsQuiet.evData {bs : List Byte} (hbs : bs ≠ []) : KeepsQuiet (evData bs) := fun _ h =>
  h.append (fs := [⟨some high, bs⟩]) (fun v _ => ⟨some high, discipline_evData v bs, by decide⟩)
    (fun k hk => by rw [foldl_next_evData k bs hk]; exact ⟨rfl, rfl⟩)
    (by simp [Frame.isWcOrWd, Nat.one_le_iff_ne_zero, hbs])

theorem KeepsQuiet.evArgs (f : ArgFraming) (ds : List Byte) : KeepsQuiet (evArgs f ds) := by
  unfold Machine.evArgs
  split
  · exact .nil
  · cases f with
    | perEntry => exact .evData ‹_›
    | perByte => exact .flatMap (fun d => .evData (List.cons_ne_nil d [])) ds

theorem KeepsQuiet.evEntry (f : ArgFraming) (c : Byte) (ds : List Byte) : KeepsQuiet (evEntry f c ds) :=
  (KeepsQuiet.evCmd c).append (.evArgs f ds)

/-- The reset pulse opens no transaction, and none of its holds is shorter than the bound (41_reset_init.md R141). -/
theorem KeepsQuiet.resetEvents (s : State) : KeepsQuiet s.resetEvents := by
  have hshort : ∀ n, ¬ holdTime Config.tHoldMin n < Config.tHoldMin := fun n => Nat.not_lt.2 (holdTime_ge _ n)
  refine fun t h => h.append (fs := []) (fun v hv => ⟨v, ?_, hv⟩) (fun k hk => ?_) rfl
  · simp [State.resetEvents, evReset, discipline, disciplineStep, hv, hshort]
  · rw [State.resetEvents, foldl_next_evReset]
    exact ⟨(List.append_nil _).symm, hk⟩

/-! ## Registers that agree with the trace -/

/-- The lines and TXB are the last levels and the last byte of the trace (10_state.md R21, R25). -/
structure State.RegistersAgree (s : State) : Prop where
  lines : ∀ L, s.lineAgrees L
  byte  : s.txbAgrees

section
variable {s t : State}

/-- It speaks of the trace and the four registers only. -/
theorem State.RegistersAgree.congr (h : s.RegistersAgree) (htrace : t.trace = s.trace)
    (hline : ∀ L, t.line L = s.line L) (htxb : t.txb = s.txb) : t.RegistersAgree where
  lines := fun L v hv => by rw [hline]; exact h.lines L v (htrace ▸ hv)
  byte := fun b hb => by rw [htxb]; exact h.byte b (htrace ▸ hb)

theorem State.line_play (s : State) (e : Event) (L : Line) :
    (s.play e).line L = (Event.levelOn L e).getD (s.line L) := by
  cases L <;> cases e <;> rfl

theorem State.play_par (s : State) (e : Event) : (s.play e).par = s.par := by
  rw [State.play_eq]

theorem State.play_busy (s : State) (e : Event) : (s.play e).busy = s.busy := by
  rw [State.play_eq]

theorem State.txb_play (s : State) (e : Event) : (s.play e).txb = e.txByte.getD s.txb := by
  rw [State.play_eq]

theorem lastLevel_concat (L : Line) (t : List Event) (e : Event) :
    lastLevel L (t ++ [e]) = (Event.levelOn L e).or (lastLevel L t) := by
  rw [lastLevel_append]
  congr 1
  unfold lastLevel lineWrites
  cases h : Event.levelOn L e <;> simp [h]

theorem getLast?_txBytes_concat (t : List Event) (e : Event) :
    (txBytes (t ++ [e])).getLast? = e.txByte.or (txBytes t).getLast? := by
  rw [txBytes_append, List.getLast?_append]
  congr 1
  unfold txBytes
  cases h : e.txByte <;> simp [h]

/-- An event leaves its level or byte in its register and at the end of the trace. -/
theorem State.RegistersAgree.play (h : s.RegistersAgree) (e : Event) : (s.play e).RegistersAgree where
  lines := fun L v hv => by
    rw [State.play_trace, lastLevel_concat] at hv
    rw [State.line_play]
    cases he : Event.levelOn L e with
    | none => rw [he] at hv; exact h.lines L v hv
    | some w => rw [he] at hv; exact Option.some.inj hv
  byte := fun b hb => by
    rw [State.play_trace, getLast?_txBytes_concat] at hb
    rw [State.txb_play]
    cases he : e.txByte with
    | none => rw [he] at hb; exact h.byte b hb
    | some w => rw [he] at hb; exact Option.some.inj hb

theorem State.RegistersAgree.foldl_play (h : s.RegistersAgree) (es : List Event) :
    (es.foldl State.play s).RegistersAgree := by
  induction es generalizing s with
  | nil => exact h
  | cons e es ih => exact ih (h.play e)

/-! ## The wire between operations -/

/-- No transaction is open: the trace is quiet and the registers agree with it. -/
structure State.QuietWire (s : State) : Prop where
  quiet : QuietTrace s.trace
  agree : s.RegistersAgree

theorem State.QuietWire.congr (h : s.QuietWire) (htrace : t.trace = s.trace) (hline : ∀ L, t.line L = s.line L)
    (htxb : t.txb = s.txb) : t.QuietWire :=
  ⟨htrace ▸ h.quiet, h.agree.congr htrace hline htxb⟩

theorem State.QuietWire.setShown (h : s.QuietWire) (x : Shown) : ({ s with shown := x } : State).QuietWire :=
  h.congr rfl (fun _ => rfl) rfl

/-- An empty trace is quiet, and says nothing about the registers (10_state.md R38). -/
theorem State.QuietWire.of_trace_nil (h : s.trace = []) : s.QuietWire where
  quiet := by rw [h]; exact ⟨rfl, rfl, rfl⟩
  agree := {
    lines := fun L v hv => by rw [h] at hv; cases hv
    byte := fun b hb => by rw [h] at hb; cases hb }

/-- Playing whole transactions and holds. -/
theorem State.QuietWire.foldl_play (h : s.QuietWire) {es : List Event} (he : KeepsQuiet es) :
    (es.foldl State.play s).QuietWire where
  quiet := by
    obtain ⟨c, d, r, x, hes⟩ := foldl_play_frame es s
    rw [hes]
    exact he h.quiet
  agree := h.agree.foldl_play es

theorem State.QuietWire.sendCommand (h : s.QuietWire) (c : Byte) : (s.sendCommand c).QuietWire := by
  rw [← foldl_play_evCmd]
  exact h.foldl_play (.evCmd c)

theorem State.QuietWire.sendData (h : s.QuietWire) {bs : List Byte} (hbs : bs ≠ []) : (s.sendData bs).QuietWire := by
  rw [← foldl_play_evData]
  exact h.foldl_play (.evData hbs)

theorem State.QuietWire.sendCmdWithArgs (h : s.QuietWire) (c : Byte) (ds : List Byte) :
    (s.sendCmdWithArgs c ds).QuietWire := by
  rw [← foldl_play_evEntry]
  exact h.foldl_play (.evEntry _ c ds)

theorem State.QuietWire.resetPanel (h : s.QuietWire) : s.resetPanel.QuietWire :=
  (h.foldl_play (.resetEvents s)).congr rfl (fun _ => rfl) rfl

theorem State.QuietWire.sendTable (h : s.QuietWire) (tab : InitTable) : (s.sendTable tab).QuietWire := by
  induction tab generalizing s with
  | nil => exact h
  | cons e tab ih => exact ih (h.sendCmdWithArgs e.1 e.2)

theorem State.QuietWire.initializePanel (h : s.QuietWire) : s.initializePanel.QuietWire := by
  have hreset : ({ s.resetPanel with life := Life.initializing } : State).QuietWire :=
    h.resetPanel.congr rfl (fun _ => rfl) rfl
  exact (hreset.sendTable s.par.initTable).congr rfl (fun _ => rfl) rfl

/-- CONSTRUCT begins a new trace (10_state.md R32). -/
theorem State.constructDriver_quietWire (s : State) : s.constructDriver.QuietWire :=
  (State.QuietWire.of_trace_nil (s := { s with cfg := s.par.construction, fb := [], trace := [] }) rfl).initializePanel

/-- The bulk frame of a flush has a byte. -/
theorem ne_nil_of_length_fbSize {fb : List Byte} (h : fb.length = Config.fbSize) : fb ≠ [] :=
  List.ne_nil_of_length_pos (by rw [h]; decide)

theorem State.QuietWire.flushNow (h : s.QuietWire) : s.flushNow.QuietWire :=
  ((((h.sendCmdWithArgs (s.cmdByte .caset) s.columnWindow).sendCmdWithArgs (s.cmdByte .raset) s.rowWindow).sendCommand
    (s.cmdByte .ramwr)).sendData (ne_nil_of_length_fbSize s.length_fbBytes)).setShown _

/-- A flush that begins has sent nothing yet (10_state.md R35). -/
theorem State.QuietWire.flushOp (h : s.QuietWire) : s.flushOp.QuietWire := by
  unfold State.flushOp
  split
  · exact h.congr rfl (fun _ => rfl) rfl
  · exact h.flushNow

/-! ## One instruction -/

variable {i : Instr}

/-- No refusal's condition holds of an admitted request (60_exceptions.md R203). -/
theorem refusalsOf_of_exec (h : exec i s = .next t) : refusalsOf i s = [] := by
  rw [← List.head?_eq_none_iff, ← verdict_eq_head]
  exact (exec_next h).1

/-- A data transaction that is admitted has a byte (40_bus_transactions.md R125). -/
theorem isEmptyData_of_exec (h : exec i s = .next t) : isEmptyData i = false := by
  obtain ⟨-, hempty⟩ := List.append_eq_nil_iff.1 (refusalsOf_of_exec h)
  simpa using hempty

/-- FB_WRITE is the one request admitted while an operation is in progress (70_reset_and_hazards.md R241). -/
theorem isFbWrite_of_exec_busy (h : exec i s = .next t) (hb : s.busy = true) : isFbWrite i = true := by
  have hr := refusalsOf_of_exec h
  simp only [refusalsOf, List.append_eq_nil_iff] at hr
  obtain ⟨⟨⟨⟨⟨hbusy, -⟩, -⟩, -⟩, -⟩, -⟩ := hr
  by_contra hi
  simp [hb, hi] at hbusy

/-- Every instruction sends whole transactions and holds, or nothing. -/
theorem exec_quietWire (h : exec i s = .next t) (hs : s.QuietWire) : t.QuietWire := by
  have hdata := isEmptyData_of_exec h
  obtain ⟨-, rfl⟩ := exec_next h
  cases i with
  | construct => exact s.constructDriver_quietWire
  | reset => exact hs.resetPanel
  | initPanel => exact hs.initializePanel
  | flush | showFrame => exact hs.flushOp
  | fbWrite | fbRead | blId => exact hs.congr rfl (fun _ => rfl) rfl
  | sendCommand c => exact (hs.sendCommand c).congr rfl (fun _ => rfl) rfl
  | sendData bs => exact (hs.sendData (of_decide_eq_false hdata)).congr rfl (fun _ => rfl) rfl
  | wireData bs => exact hs.sendData (of_decide_eq_false hdata)
  | wireCommand | cmdRamwr | cmdPixaddrMode | cmdSleepOut | cmdDisplayOn => exact hs.sendCommand _
  | cmdCaset | cmdRaset | cmdMadctl | cmdColmod | cmdPorch | cmdGammaPos | cmdGammaNeg | initEntry =>
    exact hs.sendCmdWithArgs _ _

/-- BUSY and SP are left alone, or a flush begins (10_state.md R34, R35). -/
theorem exec_busy_cases (h : exec i s = .next t) :
    (t = s.flushStart ∧ s.par.concurrentFbWrite = true) ∨ (t.busy = s.busy ∧ t.sp = s.sp) := by
  cases exec_shape h with
  | flushStarts _ hc => exact .inl ⟨rfl, hc⟩
  | _ => exact .inr ⟨rfl, rfl⟩

/-! ## The wire invariant over one step -/

theorem State.WireInv.agree (h : s.WireInv) : s.RegistersAgree := ⟨h.lines, h.byte⟩

theorem State.WireInv.quietWire (h : s.WireInv) (hb : s.busy = false) : s.QuietWire := ⟨(h.idle hb).2, h.agree⟩

theorem State.WireInv.of_quietWire (h : s.QuietWire) (hb : s.busy = false) (hsp : s.sp = 0) : s.WireInv where
  idle := fun _ => ⟨hsp, h.quiet⟩
  inFlush := fun hb' => by rw [hb] at hb'; cases hb'
  lines := h.agree.lines
  byte := h.agree.byte

/-- None of a flush's events has been sent when it begins. -/
theorem State.WireInv.flushStart (h : s.QuietWire) (hc : s.par.concurrentFbWrite = true) : s.flushStart.WireInv where
  idle := nofun
  inFlush := fun _ => ⟨hc, s.trace, s.fbBytes, h.quiet, s.length_fbBytes,
    by rw [State.flushStart_sp]; exact lt_of_lt_of_eq (Nat.succ_pos _) s.length_flushEvents.symm,
    (List.append_nil _).symm⟩
  lines := h.agree.lines
  byte := h.agree.byte

/-- Between operations an instruction sends whole transactions or begins a flush; inside a flush only FB_WRITE is
admitted, which leaves the wire alone. -/
theorem exec_wireInv (h : exec i s = .next t) (hs : s.WireInv) : t.WireInv := by
  cases hb : s.busy with
  | false =>
    obtain ⟨rfl, hc⟩ | ⟨hbusy, hsp⟩ := exec_busy_cases h
    · exact .flushStart (hs.quietWire hb) hc
    · exact .of_quietWire (exec_quietWire h (hs.quietWire hb)) (hbusy.trans hb) (hsp.trans (hs.idle hb).1)
  | true =>
    have hi := isFbWrite_of_exec_busy h hb
    obtain ⟨-, rfl⟩ := exec_next h
    cases i with
    | fbWrite a b => exact ⟨hs.idle, hs.inFlush, hs.lines, hs.byte⟩
    | _ => cases hi

/-- A flush of any buffer contents has as many events as one of the buffer as it is now. -/
theorem State.length_evFlush (s : State) {fb : List Byte} (h : fb.length = Config.fbSize) :
    (evFlush s.par.argFraming s.par.cmd fb).length = s.flushEvents.length :=
  length_evFlush_congr _ _ (h.trans s.length_fbBytes.symm)

/-- What a flush in progress has sent and its next event, which is read from the buffer as it is now, begin a flush of some
buffer contents (70_reset_and_hazards.md R241). -/
theorem State.WireInv.next_event (h : s.WireInv) (hb : s.busy = true) : ∃ e t fb,
    s.flushEvents[s.sp]? = some e ∧ s.sp + 1 ≤ s.flushEvents.length ∧ QuietTrace t ∧ fb.length = Config.fbSize ∧
    (s.play e).trace = t ++ (evFlush s.par.argFraming s.par.cmd fb).take (s.sp + 1) := by
  obtain ⟨-, t, fb, ht, hfb, hsp, htrace⟩ := h.inFlush hb
  rw [s.length_evFlush hfb] at hsp
  have he : s.flushEvents[s.sp]? = some s.flushEvents[s.sp] := List.getElem?_eq_getElem hsp
  obtain ⟨fb', hfb', htake⟩ := evFlush_next _ _ (hfb.trans s.length_fbBytes.symm) he
  refine ⟨s.flushEvents[s.sp], t, fb', he, hsp, ht, hfb'.trans s.length_fbBytes, ?_⟩
  rw [State.play_trace, htrace, htake, List.append_assoc]

/-- The next event lengthens the beginning of the flush by one; the last one completes it. -/
theorem State.WireInv.tick (h : s.WireInv) (hb : s.busy = true) : s.tick.WireInv := by
  obtain ⟨e, t, fb, he, hsp, ht, hfb, htrace⟩ := h.next_event hb
  have hagree := h.agree.play e
  rcases hsp.lt_or_eq with hmore | hlast
  · rw [State.tick_some he hmore]
    exact {
      idle := fun hidle => by rw [State.play_busy, hb] at hidle; cases hidle
      inFlush := fun _ => by
        obtain ⟨hc, -⟩ := h.inFlush hb
        rw [State.play_par]
        exact ⟨hc, t, fb, ht, hfb, (s.length_evFlush hfb).symm ▸ hmore, htrace⟩
      lines := hagree.lines
      byte := hagree.byte }
  · have hquiet : QuietTrace (s.play e).trace := by
      rw [htrace, List.take_of_length_le ((s.length_evFlush hfb).trans_le hlast.ge)]
      exact ht.append_evFlush _ _ (ne_nil_of_length_fbSize hfb)
    rw [State.tick_last he hlast]
    exact .of_quietWire (State.QuietWire.congr ⟨hquiet, hagree⟩ rfl (fun _ => rfl) rfl) rfl rfl

/-- An event is the next move only while an operation is in progress. -/
theorem busy_of_nextMove_event {u : State} (h : s.nextMove = .event u) : s.busy = true := by
  by_contra hb
  rw [State.nextMove_idle (Bool.eq_false_of_not_eq_true hb)] at h
  unfold State.moveIdle at h
  split at h
  · split at h <;> cases h
  · split at h
    · cases h
    · split at h <;> cases h

/-- Choosing the next move leaves the wire alone. -/
theorem State.WireInv.take (h : s.WireInv) (hs : List Byte) (sq : List (List Symbol)) (n : Nat) :
    ({ s with host := hs, seq := sq, draws := n } : State).WireInv :=
  ⟨h.idle, h.inFlush, h.lines, h.byte⟩

theorem step_wireInv (h : step s = .next t) (hs : s.WireInv) : t.WireInv := by
  obtain ⟨-, rfl⟩ | ⟨u, hm, rfl⟩ | ⟨i, u, hm, hx⟩ := step_next h
  · exact hs
  · obtain ⟨w, sq, n, rfl⟩ := nextMove_frame (.inl hm)
    exact (hs.take w sq n).tick (busy_of_nextMove_event (s := s) hm)
  · obtain ⟨w, sq, n, rfl⟩ := nextMove_frame (.inr ⟨i, hm⟩)
    exact exec_wireInv hx (hs.take w sq n)

/-- The whole trace is the beginning of a quiet one, the rest of a flush in progress completing it. -/
theorem State.WireInv.prefix_quiet (h : s.WireInv) : ∃ es, QuietTrace (s.trace ++ es) := by
  cases hb : s.busy with
  | false => exact ⟨[], by rw [List.append_nil]; exact (h.idle hb).2⟩
  | true =>
    obtain ⟨-, t, fb, ht, hfb, -, htrace⟩ := h.inFlush hb
    refine ⟨(evFlush s.par.argFraming s.par.cmd fb).drop s.sp, ?_⟩
    rw [htrace, List.append_assoc, List.take_append_drop]
    exact ht.append_evFlush _ _ (ne_nil_of_length_fbSize hfb)

/-- With CONCURRENT_FB_WRITE false no operation is seen in progress (10_state.md R34). -/
theorem State.WireInv.busy_eq_false (h : s.WireInv) (hc : s.par.concurrentFbWrite = false) : s.busy = false := by
  by_contra hb
  obtain ⟨hc', -⟩ := h.inFlush (Bool.eq_true_of_not_eq_false hb)
  rw [hc] at hc'
  cases hc'

end

/-- Settles O54: an instruction sends whole transactions or begins a flush, an event of a flush lengthens its beginning by
one, and the beginning of a quiet trace keeps the discipline. -/
theorem stepKeepsTheWireDiscipline : Obligations.StepKeepsTheWireDiscipline := by
  refine ⟨fun s t hs h => step_wireInv h hs, fun s hs => ?_⟩
  obtain ⟨es, hes⟩ := hs.prefix_quiet
  obtain ⟨hdiscipline, hframes⟩ := hes.prefix_facts
  refine ⟨hdiscipline, hframes, fun hb => ?_, fun hc => ?_⟩
  · obtain ⟨-, hquiet⟩ := hs.idle hb
    exact ⟨hquiet.clean, hquiet.closed⟩
  · have hb := hs.busy_eq_false hc
    exact ⟨hb, (hs.idle hb).1⟩

/-! ## The transactions as instructions (40_bus_transactions.md R124, R125, R127) -/

section
variable {s : State}

theorem exec_refused_of_verdict {i : Instr} {r : Refusal} (h : verdict i s = some r) : exec i s = .refused r := by
  rw [exec_eq, h]

/-- Once the gate is open, what is left of the verdict on each transaction (60_exceptions.md R206). -/
theorem verdict_sendCommand (hg : gateVerdict s = none) (c : Byte) :
    verdict (.sendCommand c) s = if s.par.rawBusAccess = false then some .rawNotAdmitted else none := by
  rw [verdict, hg, Option.none_or]

theorem verdict_sendData (hg : gateVerdict s = none) (bs : List Byte) :
    verdict (.sendData bs) s =
      if s.par.rawBusAccess = false then some .rawNotAdmitted else if bs = [] then some .emptyPayload else none := by
  rw [verdict, hg, Option.none_or]

theorem verdict_wireData (hg : gateVerdict s = none) (bs : List Byte) :
    verdict (.wireData bs) s = if bs = [] then some .emptyPayload else none := by
  rw [verdict, hg, Option.none_or]

end

/-- Settles O15: the five events in one record update; RAW_BUS_ACCESS decides whether the HOST may send them. -/
theorem commandTransaction : Obligations.CommandTransaction := by
  intro c s hb hl
  have hg := gateVerdict_none hb hl
  refine ⟨?_, fun hraw => ?_, fun hraw => ?_⟩
  · rw [exec_of_verdict (i := .wireCommand c) hg, effect, State.sendCommand_eq]
    rfl
  · rw [exec_of_verdict (by simp [verdict_sendCommand hg, hraw]), effect, State.sendCommand_eq]
    rfl
  · exact exec_refused_of_verdict (by rw [verdict_sendCommand hg, if_pos hraw])

/-- Settles O16: the events in one record update, whose last byte is in TXB; the two refusals in the order of R206. -/
theorem dataTransaction : Obligations.DataTransaction := by
  intro b bs s hb hl
  have hg := gateVerdict_none hb hl
  refine ⟨?_, fun hraw => ?_, fun hraw => ?_, fun hraw => ?_, ?_⟩
  · rw [exec_of_verdict (by simp [verdict_wireData hg]), effect, State.sendData_eq, List.getLastD_cons]
    rfl
  · rw [exec_of_verdict (by simp [verdict_sendData hg, hraw]), effect, State.sendData_eq, List.getLastD_cons]
    rfl
  · exact exec_refused_of_verdict (by simp [verdict_sendData hg, hraw])
  · exact exec_refused_of_verdict (by rw [verdict_sendData hg, if_pos hraw])
  · exact exec_refused_of_verdict (by rw [verdict_wireData hg, if_pos rfl])

/-- Settles O20: every one of these rows is `SendCmdWithArgs` behind the gate. -/
theorem entryRowsSendCommandThenData : Obligations.EntryRowsSendCommandThenData := by
  intro c ds s hb hl
  have hrow : ∀ i b, verdict i s = gateVerdict s → effect i s = s.sendCmdWithArgs b ds →
      exec i s = .next (s.afterEntry b ds) := by
    intro i b hv he
    rw [exec_of_verdict (hv.trans (gateVerdict_none hb hl)), he, State.sendCmdWithArgs_eq]
  exact ⟨hrow _ _ rfl rfl, hrow _ _ rfl rfl, hrow _ _ rfl rfl, hrow _ _ rfl rfl, hrow _ _ rfl rfl, hrow _ _ rfl rfl⟩

/-! ## The traces of transactions read back (40_bus_transactions.md R130 to R133) -/

/-- Settles O17: a scan with no frame open reads each transaction as one frame. -/
theorem eachTransactionIsOneFrame : Obligations.EachTransactionIsOneFrame := by
  intro t c bs hclosed
  have hcmd : frameScan (t ++ evCmd c) = ⟨frames t ++ [⟨some 0, [c]⟩], some 0, none⟩ :=
    (frameScan_append t _).trans (foldl_next_evCmd _ c hclosed)
  have hdata : frameScan (t ++ evData bs) = ⟨frames t ++ [⟨some 1, bs⟩], some 1, none⟩ :=
    (frameScan_append t _).trans (foldl_next_evData _ bs hclosed)
  exact ⟨by rw [frames, hcmd], by rw [hcmd], by rw [frames, hdata], by rw [hdata], assertions_evCmd c,
    assertions_evData bs, txBytes_evData bs⟩

/-- A transaction writes chip-select three times, whatever its bytes. -/
theorem lineWrites_cs_evCmd (c : Byte) : lineWrites .cs (evCmd c) = [high, low, high] := rfl

theorem lineWrites_cs_evData (bs : List Byte) : lineWrites .cs (evData bs) = [high, low, high] := by
  rw [evData, lineWrites_append, lineWrites_append, lineWrites_tx]
  rfl

/-- The first of the three writes is an edge unless the line is known to be high. -/
theorem dropRedundant_high_low_high (v : Option Level) :
    dropRedundant v [high, low, high] = if v = some high then [low, high] else [high, low, high] := by
  have hfall : dropRedundant (some high) [low, high] = [low, high] := by decide
  by_cases h : v = some high
  · rw [dropRedundant, if_pos h, if_pos h, h, hfall]
  · rw [dropRedundant, if_neg h, if_neg h, hfall]

/-- One falling edge and a last level of high, for any trace that writes chip-select as a transaction does. -/
theorem waveform_cs_of_transaction {es : List Event} (h : lineWrites .cs es = [high, low, high]) (v : Option Level) :
    (waveform .cs v es).count 0 = 1 ∧ (waveform .cs v es).getLast? = some 1 := by
  rw [waveform, h, dropRedundant_high_low_high]
  split <;> decide

/-- Settles O18: both transactions write chip-select high, low, high. -/
theorem oneFallingEdgeWhateverTheLineHeld : Obligations.OneFallingEdgeWhateverTheLineHeld := by
  intro v c bs
  obtain ⟨hcmd, hcmd'⟩ := waveform_cs_of_transaction (lineWrites_cs_evCmd c) v
  obtain ⟨hdata, hdata'⟩ := waveform_cs_of_transaction (lineWrites_cs_evData bs) v
  exact ⟨hcmd, hcmd', hdata, hdata'⟩

theorem argFrames_perEntry (ds : List Byte) :
    argFrames .perEntry ds = if ds = [] then [] else [⟨some high, ds⟩] := rfl

theorem argFrames_perByte (ds : List Byte) : argFrames .perByte ds = ds.map (fun d => ⟨some high, [d]⟩) := by
  unfold argFrames
  split
  case isTrue h => rw [h, List.map_nil]
  case isFalse => rfl

/-- The data frames of an entry are the frames of its arguments (40_bus_transactions.md R133). -/
theorem countP_isData_evEntry (f : ArgFraming) (c : Byte) (ds : List Byte) :
    (frames (evEntry f c ds)).countP Frame.isData = (argFrames f ds).length := by
  have hcmd : ¬ Frame.isData ⟨some low, [c]⟩ = true := by simp [Frame.isData]
  rw [frames_evEntry, List.countP_cons_of_neg hcmd, List.countP_eq_length]
  exact fun g hg => decide_eq_true (dc_of_mem_argFrames hg)

theorem length_argFrames_perEntry (ds : List Byte) : (argFrames .perEntry ds).length = min 1 ds.length := by
  rw [argFrames_perEntry]
  cases ds with
  | nil => rfl
  | cons d ds => simp

theorem length_argFrames_perByte (ds : List Byte) : (argFrames .perByte ds).length = ds.length := by
  rw [argFrames_perByte, List.length_map]

/-- The mode-select level at each byte of an entry does not depend on the framing (40_bus_transactions.md R133). -/
theorem dcAtTx_evEntry_alone (v : Option Level) (f : ArgFraming) (c : Byte) (ds : List Byte) :
    dcAtTx v (evEntry f c ds) = some low :: ds.map (fun _ => some high) := by
  simpa [dcAtTx] using dcAtTx_evEntry v f c ds []

/-- One data byte, or none, is framed alike (40_bus_transactions.md R133). -/
theorem evArgs_of_length_le_one {ds : List Byte} (h : ds.length ≤ 1) (f g : ArgFraming) :
    evArgs f ds = evArgs g ds := by
  match ds, h with
  | [], _ => rfl
  | [d], _ => cases f <;> cases g <;> rfl

/-- Settles O19: bytes, levels and the command frame are the same for both framings, and the data frames are the frames of
the arguments. -/
theorem framingChangesOnlyTheFrameCount : Obligations.FramingChangesOnlyTheFrameCount := by
  intro c ds
  refine ⟨fun f => txBytes_evEntry f c ds, fun v => ?_, fun f => ?_, ?_, ?_, ?_, ?_, fun h => ?_, rfl, length_evData,
    fun h => ?_, length_evEntry_perByte c ds⟩
  · rw [dcAtTx_evEntry_alone, dcAtTx_evEntry_alone]
  · rw [frames_evEntry]
    rfl
  · rw [frames_evEntry, List.tail_cons, argFrames_perEntry]
    rfl
  · rw [frames_evEntry, List.tail_cons, argFrames_perByte]
    rfl
  · exact (countP_isData_evEntry .perEntry c ds).trans (length_argFrames_perEntry ds)
  · exact (countP_isData_evEntry .perByte c ds).trans (length_argFrames_perByte ds)
  · rw [evEntry, evEntry, evArgs_of_length_le_one h .perEntry .perByte]
  · exact length_evEntry_perEntry c ds (List.ne_nil_of_length_pos h)

end Sys2Proof.Machine

/-! PROOF. Family 41_reset_init: the reset pulse, initialization and construction as instructions, the events and frames
of an initialization, LIFE after every instruction, and the independence of the wire from LIFE. -/

namespace Sys2Proof.Machine

/-! ## What an initialization leaves (41_reset_init.md R142, R150, R155) -/

/-- The state between the two phases of INITIALIZE: the pulse sent, the table not yet (41_reset_init.md R150). -/
def State.pulsed (s : State) : State :=
  { s with
    rst := high, life := .initializing, shown := .undefined, draws := s.draws + 3
    trace := s.trace ++ s.resetEvents }

/-- The state CONSTRUCT initializes from (41_reset_init.md R155). -/
def State.built (s : State) : State := { s with cfg := s.par.construction, fb := [], trace := [] }

section
variable {s : State}

theorem effect_construct (s : State) : effect .construct s = s.built.initializePanel := rfl

theorem State.initializePanel_eq_pulsed (s : State) :
    s.initializePanel = { s.pulsed.sendTable s.par.initTable with life := .ready, shown := .undefined } :=
  s.initializePanel_eq

/-- Everything but CS, DC and TXB after an initialization. -/
theorem State.initializePanel_result (s : State) :
    s.initializePanel =
      { s with
        cs := s.initializePanel.cs, dc := s.initializePanel.dc, txb := s.initializePanel.txb
        rst := high, life := .ready, shown := .undefined, draws := s.draws + 3
        trace := s.trace ++ s.initEvents } := by
  obtain ⟨c, d, x, h⟩ := s.initializePanel_shape
  rw [h]

/-- The last bare command leaves the bus (41_reset_init.md R149, R150). -/
theorem State.initializePanel_bus_of_tableWf (h : s.tableWf = true) :
    s.initializePanel.cs = high ∧ s.initializePanel.dc = low ∧ s.initializePanel.txb = s.par.cmd.displayOn := by
  have hsend : s.pulsed.sendTable s.par.initTable = _ := State.sendTable_wf (s := s.pulsed) h
  rw [State.initializePanel_eq_pulsed, hsend]
  exact ⟨rfl, rfl, rfl⟩

/-- With no entries there is the pulse only (95_test_vectors.md V41-5). -/
theorem State.initializePanel_bus_of_no_table (h : s.par.initTable = []) :
    s.initializePanel.cs = s.cs ∧ s.initializePanel.dc = s.dc ∧ s.initializePanel.txb = s.txb := by
  rw [State.initializePanel_eq_pulsed, h, State.sendTable_nil]
  exact ⟨rfl, rfl, rfl⟩

theorem exec_reset (hb : s.busy = false) (hl : s.life ≠ .unpowered) : exec .reset s = .next s.resetPanel :=
  exec_of_verdict (i := .reset) (gateVerdict_none hb hl)

theorem exec_initPanel (hb : s.busy = false) (hl : s.life ≠ .unpowered) :
    exec .initPanel s = .next s.initializePanel :=
  exec_of_verdict (i := .initPanel) (gateVerdict_none hb hl)

theorem exec_construct (hb : s.busy = false) (hl : s.life = .unpowered) :
    exec .construct s = .next s.built.initializePanel := by
  rw [exec_of_verdict (by simp [verdict, hb, hl]), effect_construct]

theorem exec_initEntry (hb : s.busy = false) (hl : s.life ≠ .unpowered) (c : Byte) (ds : List Byte) :
    exec (.initEntry c ds) s = .next (s.sendCmdWithArgs c ds) :=
  exec_of_verdict (i := .initEntry c ds) (gateVerdict_none hb hl)

end

/-- Settles O23: the pulse draws three holds, none shorter than T_HOLD_MIN. -/
theorem resetPulse : Obligations.ResetPulse := by
  intro s hb hl
  refine ⟨_, _, _, holdTime_ge _ s.draws, holdTime_ge _ (s.draws + 1), holdTime_ge _ (s.draws + 2), ?_⟩
  rw [exec_reset hb hl, State.resetPanel_eq]
  rfl

/-- Settles O24: the pulse and the table phase in one record update, and the bus for the two kinds of table. -/
theorem initializeResult : Obligations.InitializeResult := by
  intro s hb hl
  exact ⟨_, _, _, _, exec_initPanel hb hl, holdTime_ge _ s.draws, holdTime_ge _ (s.draws + 1),
    holdTime_ge _ (s.draws + 2), s.initializePanel_result, State.initializePanel_bus_of_tableWf,
    State.initializePanel_bus_of_no_table⟩

/-- Settles O25: CONSTRUCT is an initialization from an empty trace and a buffer nothing has written; the other two
clauses are the one refusal whose condition holds. -/
theorem constructResult : Obligations.ConstructResult := by
  refine ⟨fun s hb hl => ?_, fun s hb hl => ?_, fun i s hb hl hi => ?_⟩
  · have hresult := s.built.initializePanel_result
    have hread : ∀ a, s.built.initializePanel.fbRead a = Params.fbInitAt s.par a := by
      intro a
      rw [hresult]
      rfl
    exact ⟨_, _, _, _, exec_construct hb hl, holdTime_ge _ s.draws, holdTime_ge _ (s.draws + 1),
      holdTime_ge _ (s.draws + 2), hresult, hread, State.initializePanel_bus_of_tableWf (s := s.built)⟩
  · exact exec_refused_of_verdict (by simp [verdict, hb, hl])
  · exact exec_refused_of_verdict (by rw [verdict_eq_head]; simp [refusalsOf, hb, hl, hi])

/-! ## LIFE (41_reset_init.md R156) -/

@[simp] theorem State.sendCommand_life (s : State) (c : Byte) : (s.sendCommand c).life = s.life := rfl

@[simp] theorem State.sendData_life (s : State) (bs : List Byte) : (s.sendData bs).life = s.life := by
  rw [State.sendData_eq, State.onBus_life]

@[simp] theorem State.sendCmdWithArgs_life (s : State) (c : Byte) (ds : List Byte) :
    (s.sendCmdWithArgs c ds).life = s.life := by
  rw [State.sendCmdWithArgs_eq]
  rfl

@[simp] theorem State.flushOp_life (s : State) : s.flushOp.life = s.life := by
  unfold State.flushOp
  split
  · rfl
  · rw [State.flushNow_eq]
    rfl

@[simp] theorem State.initializePanel_life (s : State) : s.initializePanel.life = .ready := rfl

/-- The table of R156, column "after". -/
theorem effect_life (i : Instr) (s : State) : (effect i s).life = lifeAfter i s.life := by
  cases i with
  | construct =>
    rw [effect_construct]
    exact s.built.initializePanel_life
  | initPanel => exact s.initializePanel_life
  | flush | showFrame => exact s.flushOp_life
  | reset | fbWrite | fbRead | blId | sendCommand | sendData => rfl
  | wireData bs => exact s.sendData_life bs
  | wireCommand | cmdRamwr | cmdPixaddrMode | cmdSleepOut | cmdDisplayOn => exact s.sendCommand_life _
  | cmdCaset | cmdRaset | cmdMadctl | cmdColmod | cmdPorch | cmdGammaPos | cmdGammaNeg | initEntry =>
    exact s.sendCmdWithArgs_life _ _

/-- Settles O26: LIFE is part of the effect, and the lifecycle states are part of the verdict. -/
theorem lifeTransitions : Obligations.LifeTransitions := by
  intro i s t h
  have hadmit := exec_life h
  obtain ⟨-, rfl⟩ := exec_next h
  exact ⟨effect_life i s, hadmit.1, mt hadmit.2⟩

/-! ## The events of an initialization (41_reset_init.md R151, R152, R158) -/

theorem evTable_cons (f : ArgFraming) (e : InitEntry) (t : InitTable) :
    evTable f (e :: t) = evEntry f e.1 e.2 ++ evTable f t := List.flatMap_cons

theorem tableFrames_cons (f : ArgFraming) (e : InitEntry) (t : InitTable) :
    tableFrames f (e :: t) = ⟨some low, [e.1]⟩ :: argFrames f e.2 ++ tableFrames f t := List.flatMap_cons

theorem tableFrames_append (f : ArgFraming) (t u : InitTable) :
    tableFrames f (t ++ u) = tableFrames f t ++ tableFrames f u := List.flatMap_append

/-- The table phase neither waits nor writes the reset line. -/
theorem evTable_no_wait_no_rst (f : ArgFraming) (t : InitTable) :
    ∀ e ∈ evTable f t, (∀ d, e ≠ .wait d) ∧ ∀ v, e ≠ .rst v := by
  intro e he
  obtain ⟨a, -, hea⟩ := List.mem_flatMap.1 he
  exact evEntry_no_wait_no_rst f a.1 a.2 e hea

/-- Settles O28: the waits and the writes of RST are those of the pulse, and its last event is the third hold. -/
theorem holdsComeBeforeTheFirstCommand : Obligations.HoldsComeBeforeTheFirstCommand := by
  intro s t h
  obtain ⟨-, rfl⟩ := exec_next h
  have htable := evTable_no_wait_no_rst s.par.argFraming s.par.initTable
  have htrace : s.initializePanel.trace =
      s.trace ++ s.resetEvents ++ evTable s.par.argFraming s.par.initTable := by
    rw [State.initializePanel_trace, State.initEvents, List.append_assoc]
  exact ⟨_, _, _, _, htrace, holdTime_ge _ (s.draws + 2), fun e he => (htable e he).1, fun e he => (htable e he).2⟩

/-- With the durations forgotten, a table has one list of initialization events. -/
theorem map_forgetDuration_evInit (f : ArgFraming) (t : InitTable) (d1 d2 d3 d1' d2' d3' : Nat) :
    (evInit f t d1 d2 d3).map Event.forgetDuration = (evInit f t d1' d2' d3').map Event.forgetDuration := rfl

/-- What a state draws is an `ev_init` of its table. -/
theorem State.exists_initEvents (s : State) :
    ∃ d1 d2 d3, s.initEvents = evInit s.par.argFraming s.par.initTable d1 d2 d3 := ⟨_, _, _, rfl⟩

/-- Settles O27: both append an `ev_init` of the one table. -/
theorem initializationIsDeterministic : Obligations.InitializationIsDeterministic := by
  intro s s' hb hb' hl hl' hp
  refine ⟨_, _, _, _, exec_initPanel hb hl, exec_initPanel hb' hl', s.initializePanel_trace,
    s'.initializePanel_trace, ?_⟩
  obtain ⟨d1, d2, d3, h⟩ := s.exists_initEvents
  obtain ⟨d1', d2', d3', h'⟩ := s'.exists_initEvents
  rw [h, h', hp]
  exact ⟨by rw [frames_evInit, frames_evInit], map_forgetDuration_evInit _ _ d1 d2 d3 d1' d2' d3'⟩

/-- A bare entry is a command transaction; data adds a transaction of its own. -/
theorem length_evEntry_perEntry_eq (c : Byte) (ds : List Byte) :
    (evEntry .perEntry c ds).length = 5 + ds.length + if 1 ≤ ds.length then 4 else 0 := by
  cases ds with
  | nil => rfl
  | cons d ds =>
    rw [length_evEntry_perEntry c _ (List.cons_ne_nil d ds), if_pos (by simp)]
    omega

theorem length_evTable_perEntry (t : InitTable) :
    (evTable .perEntry t).length =
      5 * t.length + (t.map (fun e => e.2.length)).sum + 4 * t.countP (fun e => decide (1 ≤ e.2.length)) := by
  induction t with
  | nil => rfl
  | cons e t ih =>
    rw [evTable_cons, List.length_append, length_evEntry_perEntry_eq, ih, List.countP_cons]
    simp only [List.length_cons, List.map_cons, List.sum_cons, decide_eq_true_eq]
    split <;> omega

theorem length_evTable_perByte (t : InitTable) :
    (evTable .perByte t).length = 5 * t.length + 5 * (t.map (fun e => e.2.length)).sum := by
  induction t with
  | nil => rfl
  | cons e t ih =>
    rw [evTable_cons, List.length_append, length_evEntry_perByte, ih]
    simp only [List.length_cons, List.map_cons, List.sum_cons]
    omega

theorem length_tableFrames_perEntry (t : InitTable) :
    (tableFrames .perEntry t).length = t.length + t.countP (fun e => decide (1 ≤ e.2.length)) := by
  induction t with
  | nil => rfl
  | cons e t ih =>
    rw [tableFrames_cons, List.length_append, List.length_cons, length_argFrames_perEntry, ih, List.countP_cons]
    simp only [List.length_cons, decide_eq_true_eq]
    split <;> omega

theorem length_tableFrames_perByte (t : InitTable) :
    (tableFrames .perByte t).length = t.length + (t.map (fun e => e.2.length)).sum := by
  induction t with
  | nil => rfl
  | cons e t ih =>
    rw [tableFrames_cons, List.length_append, List.length_cons, length_argFrames_perByte, ih]
    simp only [List.length_cons, List.map_cons, List.sum_cons]
    omega

theorem txBytes_evTable (f : ArgFraming) (t : InitTable) : txBytes (evTable f t) = t.flatMap (fun e => e.1 :: e.2) := by
  induction t with
  | nil => rfl
  | cons e t ih => rw [evTable_cons, txBytes_append, txBytes_evEntry, ih, List.flatMap_cons]

/-- The pulse has six events and no byte. -/
theorem length_evInit (f : ArgFraming) (t : InitTable) (d1 d2 d3 : Nat) :
    (evInit f t d1 d2 d3).length = 6 + (evTable f t).length := by
  rw [evInit, List.length_append]
  rfl

theorem txBytes_evInit (f : ArgFraming) (t : InitTable) (d1 d2 d3 : Nat) :
    txBytes (evInit f t d1 d2 d3) = txBytes (evTable f t) := by
  rw [evInit, txBytes_append]
  rfl

/-- Settles O29: six events of the pulse, and the counts of the table entry by entry. -/
theorem initializationCounts : Obligations.InitializationCounts := by
  intro t d1 d2 d3
  refine ⟨?_, ?_, ?_, ?_, fun f => ?_⟩
  · rw [length_evInit, length_evTable_perEntry, Nat.add_assoc 6, Nat.add_assoc 6]
  · rw [length_evInit, length_evTable_perByte, Nat.add_assoc 6]
  · rw [frames_evInit, length_tableFrames_perEntry]
  · rw [frames_evInit, length_tableFrames_perByte]
  · rw [txBytes_evInit, txBytes_evTable]

/-- The frames of an initialization with a well-formed table end with its three bare commands (41_reset_init.md R149). -/
theorem frames_evInit_of_wfInit {b : CmdBytes} {n : Nat} {t : InitTable} (h : wfInit b n t = true) (f : ArgFraming)
    (d1 d2 d3 : Nat) :
    ∃ fs, frames (evInit f t d1 d2 d3) =
      fs ++ [⟨some low, [b.pixaddrMode]⟩, ⟨some low, [b.sleepOut]⟩, ⟨some low, [b.displayOn]⟩] := by
  obtain ⟨u, rfl⟩ := wfInit_last_three h
  exact ⟨tableFrames f u, by rw [frames_evInit, tableFrames_append]; rfl⟩

/-- Settles O30: the table at power-on has the shape, and CONSTRUCT's trace is an initialization's. -/
theorem initializationEndsWithThreeBareCommands : Obligations.InitializationEndsWithThreeBareCommands := by
  refine ⟨fun b n t f d1 d2 d3 h => ⟨wfInit_last_three h, frames_evInit_of_wfInit h f d1 d2 d3⟩, State.reset_tableWf, ?_⟩
  obtain ⟨d1, d2, d3, hes⟩ := State.reset.built.exists_initEvents
  obtain ⟨fs, hfs⟩ := frames_evInit_of_wfInit State.reset_tableWf State.reset.par.argFraming d1 d2 d3
  refine ⟨_, fs, exec_construct rfl rfl, ?_⟩
  rw [State.initializePanel_result, hes]
  exact hfs

/-! ## LIFE and SHOWN do not reach the wire (41_reset_init.md R157) -/

/-- A state with another LIFE and another SHOWN. -/
def State.relabel (s : State) (l : Life) (x : Shown) : State := { s with life := l, shown := x }

section
variable {s : State} {l : Life}

@[simp] theorem State.relabel_par (s : State) (l : Life) (x : Shown) : (s.relabel l x).par = s.par := rfl

theorem State.sendCommand_relabel (s : State) (l : Life) (x : Shown) (c : Byte) :
    (s.relabel l x).sendCommand c = (s.sendCommand c).relabel l x := rfl

theorem State.sendData_relabel (s : State) (l : Life) (x : Shown) (bs : List Byte) :
    (s.relabel l x).sendData bs = (s.sendData bs).relabel l x := by
  rw [State.sendData_eq, State.sendData_eq]
  rfl

theorem State.sendCmdWithArgs_relabel (s : State) (l : Life) (x : Shown) (c : Byte) (ds : List Byte) :
    (s.relabel l x).sendCmdWithArgs c ds = (s.sendCmdWithArgs c ds).relabel l x := by
  rw [State.sendCmdWithArgs_eq, State.sendCmdWithArgs_eq]
  rfl

theorem State.sendTable_relabel (s : State) (l : Life) (x : Shown) (t : InitTable) :
    (s.relabel l x).sendTable t = (s.sendTable t).relabel l x := by
  unfold State.sendTable
  induction t generalizing s with
  | nil => rfl
  | cons e t ih => rw [List.foldl_cons, List.foldl_cons, State.sendCmdWithArgs_relabel, ih]

/-- RESET writes both, so what they were is lost. -/
theorem State.resetPanel_relabel (s : State) (l : Life) (x : Shown) : (s.relabel l x).resetPanel = s.resetPanel := rfl

theorem State.initializePanel_relabel (s : State) (l : Life) (x : Shown) :
    (s.relabel l x).initializePanel = s.initializePanel := rfl

theorem State.flushOp_relabel (s : State) (l : Life) (x : Shown) :
    ∃ l' x', (s.relabel l x).flushOp = s.flushOp.relabel l' x' := by
  unfold State.flushOp
  rw [State.relabel_par]
  split
  · exact ⟨l, x, rfl⟩
  · have hevents : (s.relabel l x).flushEvents = s.flushEvents := State.flushEvents_congr rfl rfl
    refine ⟨l, (s.relabel l x).promise (s.relabel l x).fbBytes, ?_⟩
    rw [State.flushNow_eq, State.flushNow_eq, hevents]
    rfl

/-- An instruction's effect in two states that differ in LIFE and SHOWN only. -/
theorem effect_relabel (i : Instr) (s : State) (l : Life) (x : Shown) :
    ∃ l' x', effect i (s.relabel l x) = (effect i s).relabel l' x' := by
  cases i with
  | construct => exact ⟨.ready, .undefined, s.built.initializePanel_relabel l x⟩
  | reset => exact ⟨.resetting, .undefined, s.resetPanel_relabel l x⟩
  | initPanel => exact ⟨.ready, .undefined, s.initializePanel_relabel l x⟩
  | flush | showFrame => exact s.flushOp_relabel l x
  | fbWrite | fbRead | blId => exact ⟨l, x, rfl⟩
  | sendCommand c => exact ⟨.initializing, .undefined, by rw [effect, State.sendCommand_relabel]; rfl⟩
  | sendData bs => exact ⟨.initializing, .undefined, by rw [effect, State.sendData_relabel]; rfl⟩
  | wireData bs => exact ⟨l, x, s.sendData_relabel l x bs⟩
  | wireCommand | cmdRamwr | cmdPixaddrMode | cmdSleepOut | cmdDisplayOn => exact ⟨l, x, s.sendCommand_relabel l x _⟩
  | cmdCaset | cmdRaset | cmdMadctl | cmdColmod | cmdPorch | cmdGammaPos | cmdGammaNeg | initEntry =>
    exact ⟨l, x, s.sendCmdWithArgs_relabel l x _ _⟩

/-- A driver exists in both or in neither. -/
theorem gateVerdict_relabel (hs : s.life ≠ .unpowered) (hl : l ≠ .unpowered) (x : Shown) :
    gateVerdict (s.relabel l x) = gateVerdict s := by
  simp [gateVerdict, State.relabel, hs, hl]

/-- A verdict asks of LIFE only whether a driver exists (60_exceptions.md R203). -/
theorem verdict_relabel (i : Instr) (hs : s.life ≠ .unpowered) (hl : l ≠ .unpowered) (x : Shown) :
    verdict i (s.relabel l x) = verdict i s := by
  have hgate := gateVerdict_relabel hs hl x
  cases i with
  | construct | fbWrite => simp [verdict, State.relabel, hs, hl]
  | fbRead | wireData => rw [verdict, verdict, hgate]
  | sendCommand | sendData => rw [verdict, verdict, hgate, State.relabel_par]
  | _ => exact hgate

end

/-- Settles O51: neither the verdict nor the effect on anything else reads LIFE or SHOWN. -/
theorem wireBehaviourIgnoresLife : Obligations.WireBehaviourIgnoresLife := by
  intro i s t l x hl hs h
  obtain ⟨hv, rfl⟩ := exec_next h
  obtain ⟨l', x', he⟩ := effect_relabel i s l x
  refine ⟨(effect i s).relabel l' x', ?_, rfl⟩
  rw [← he]
  exact exec_of_verdict ((verdict_relabel i hs hl x).trans hv)

/-! ## INITIALIZE as RESET and then the table (41_reset_init.md R145, R150) -/

/-- One INIT_ENTRY for each entry of a table, in order, is the table phase. -/
theorem runAll_initEntries (t : InitTable) {s : State} (hb : s.busy = false) (hl : s.life ≠ .unpowered) :
    runAll (t.map (fun e => Instr.initEntry e.1 e.2)) s = .next (s.sendTable t) := by
  induction t generalizing s with
  | nil => rfl
  | cons e t ih =>
    have hb' : (s.sendCmdWithArgs e.1 e.2).busy = false := by
      rw [State.sendCmdWithArgs_eq]
      exact hb
    rw [List.map_cons, runAll_cons (exec_initEntry hb hl e.1 e.2), ih hb' (by rwa [State.sendCmdWithArgs_life])]
    rfl

/-- Settles O31: LIFE is Resetting in the one table phase and Initializing in the other, which makes no difference to
what it sends. -/
theorem initializeIsResetThenEveryEntry : Obligations.InitializeIsResetThenEveryEntry := by
  intro s hb hl
  have hreset : s.resetPanel.life ≠ .unpowered := by
    rw [State.resetPanel_eq]
    exact nofun
  refine ⟨s.resetPanel.sendTable s.par.initTable, ?_, ?_⟩
  · rw [runAll_cons (exec_reset hb hl), runAll_initEntries (s := s.resetPanel) _ hb hreset]
  · rw [exec_initPanel hb hl]
    have hinit : s.initializePanel =
        ((s.resetPanel.relabel .initializing .undefined).sendTable s.par.initTable).relabel .ready .undefined := rfl
    rw [hinit, State.sendTable_relabel]
    rfl

end Sys2Proof.Machine

/-! PROOF. Family 42_flush: the window payload, the rows of a flush as instructions, the flush as a whole, what its events
read back as, and the panel image it leaves. -/

namespace Sys2Proof.Machine

/-! ## The window payload (42_flush.md R171) -/

theorem toNat_hi8 (v : Half) : (hi8 v).toNat = v.toNat / 256 := by
  have hv := v.isLt
  rw [hi8, BitVec.extractLsb'_toNat, Nat.shiftRight_eq_div_pow]
  omega

theorem toNat_lo8 (v : Half) : (lo8 v).toNat = v.toNat % 256 := by
  rw [lo8, BitVec.extractLsb'_toNat, Nat.shiftRight_zero]

/-- Settles O3: the two bytes are quotient and remainder by 256. -/
theorem windowPayloadSplitsExactly : Obligations.WindowPayloadSplitsExactly := by
  refine ⟨fun v e => ⟨rfl, ?_⟩, win_columns, win_rows⟩
  rw [toNat_hi8, toNat_lo8, Nat.div_add_mod']

/-! ## The rows as instructions (42_flush.md R172, R173) -/

section
variable {s : State} {i : Instr} {c : Byte}

/-- An instruction that is `SendCmdWithArgs` behind the gate. -/
theorem exec_of_sendCmdWithArgs {ds : List Byte} (hb : s.busy = false) (hl : s.life ≠ .unpowered)
    (hv : verdict i s = gateVerdict s) (he : effect i s = s.sendCmdWithArgs c ds) :
    exec i s = .next (s.afterEntry c ds) := by
  rw [exec_of_verdict (hv.trans (gateVerdict_none hb hl)), he, State.sendCmdWithArgs_eq]

/-- An instruction that is `SEND_COMMAND` behind the gate. -/
theorem exec_of_sendCommand (hb : s.busy = false) (hl : s.life ≠ .unpowered) (hv : verdict i s = gateVerdict s)
    (he : effect i s = s.sendCommand c) : exec i s = .next (s.onBus high low c (evCmd c)) := by
  rw [exec_of_verdict (hv.trans (gateVerdict_none hb hl)), he, State.sendCommand_eq]

theorem exec_cmdCaset (hb : s.busy = false) (hl : s.life ≠ .unpowered) :
    exec .cmdCaset s = .next (s.afterEntry s.par.cmd.caset s.columnWindow) :=
  exec_of_sendCmdWithArgs hb hl rfl rfl

theorem exec_cmdRaset (hb : s.busy = false) (hl : s.life ≠ .unpowered) :
    exec .cmdRaset s = .next (s.afterEntry s.par.cmd.raset s.rowWindow) :=
  exec_of_sendCmdWithArgs hb hl rfl rfl

theorem exec_cmdRamwr (hb : s.busy = false) (hl : s.life ≠ .unpowered) :
    exec .cmdRamwr s = .next (s.onBus high low s.par.cmd.ramwr (evCmd s.par.cmd.ramwr)) :=
  exec_of_sendCommand hb hl rfl rfl

theorem exec_wireData {bs : List Byte} (hb : s.busy = false) (hl : s.life ≠ .unpowered) (hbs : bs ≠ []) :
    exec (.wireData bs) s = .next (s.onBus high high (bs.getLastD s.txb) (evData bs)) := by
  have hv : verdict (.wireData bs) s = none := by rw [verdict_wireData (gateVerdict_none hb hl), if_neg hbs]
  rw [exec_of_verdict hv, effect, State.sendData_eq]

end

/-- Settles O21: the payloads are read through the state but are not in it. -/
theorem windowRowsSendTheConstants : Obligations.WindowRowsSendTheConstants := by
  intro s hb hl
  have hcol : s.columnWindow = [0x00, 0x28, 0x01, 0x17] := win_columns
  have hrow : s.rowWindow = [0x00, 0x35, 0x00, 0xBB] := win_rows
  rw [exec_cmdCaset hb hl, exec_cmdRaset hb hl, hcol, hrow]
  exact ⟨rfl, rfl⟩

/-- Settles O22: each of the four is `SEND_COMMAND` of its own byte behind the gate. -/
theorem bareRowsSendOneCommandFrame : Obligations.BareRowsSendOneCommandFrame := fun _ hb hl =>
  ⟨exec_of_sendCommand hb hl rfl rfl, exec_of_sendCommand hb hl rfl rfl, exec_of_sendCommand hb hl rfl rfl,
    exec_of_sendCommand hb hl rfl rfl⟩

/-! ## The flush as an instruction (42_flush.md R174, R177) -/

/-- Settles O13: the encoder and the dispatch treat the two names alike. -/
theorem showIsFlush : Obligations.ShowIsFlush := ⟨fun _ => rfl, fun _ => rfl⟩

section
variable {s t : State}

@[simp] theorem State.flushNow_life (s : State) : s.flushNow.life = s.life := by rw [State.flushNow_eq]; rfl
@[simp] theorem State.flushNow_busy (s : State) : s.flushNow.busy = s.busy := by rw [State.flushNow_eq]; rfl
@[simp] theorem State.flushNow_par (s : State) : s.flushNow.par = s.par := by rw [State.flushNow_eq]; rfl
@[simp] theorem State.flushNow_fb (s : State) : s.flushNow.fb = s.fb := by rw [State.flushNow_eq]; rfl
@[simp] theorem State.flushNow_trace (s : State) : s.flushNow.trace = s.trace ++ s.flushEvents := by
  rw [State.flushNow_eq]
  rfl
@[simp] theorem State.flushNow_shown (s : State) : s.flushNow.shown = s.promise s.fbBytes := by rw [State.flushNow_eq]

/-- A flush does not write what it reads, so the buffer, the events and the promise are the same again
(42_flush.md R180). -/
theorem State.flushNow_fbBytes (s : State) : s.flushNow.fbBytes = s.fbBytes :=
  State.fbBytes_congr s s.flushNow s.flushNow_par s.flushNow_fb

theorem State.flushNow_flushEvents (s : State) : s.flushNow.flushEvents = s.flushEvents :=
  State.flushEvents_congr s.flushNow_par s.flushNow_fb

theorem State.flushNow_promise (s : State) (bs : List Byte) : s.flushNow.promise bs = s.promise bs := by
  rw [State.promise, State.flushNow_life, State.promise]

/-- With CONCURRENT_FB_WRITE false a flush is one atomic transition. -/
theorem State.flushOp_eq_flushNow (hc : s.par.concurrentFbWrite = false) : s.flushOp = s.flushNow := by
  simp [State.flushOp, hc]

theorem exec_flush (hb : s.busy = false) (hl : s.life ≠ .unpowered) (hc : s.par.concurrentFbWrite = false) :
    exec .flush s = .next s.flushNow := by
  rw [exec_of_verdict (i := .flush) (gateVerdict_none hb hl), effect, State.flushOp_eq_flushNow hc]

/-- The inversion of an admitted flush, under either name. -/
theorem exec_isFlush_next {f : Instr} (hf : isFlush f = true) (hc : s.par.concurrentFbWrite = false)
    (h : exec f s = .next t) : s.busy = false ∧ s.life ≠ .unpowered ∧ t = s.flushNow := by
  have hgate : s.gate (.next s.flushOp) = .next t := by
    obtain rfl | rfl := isFlush_iff.1 hf <;> exact h
  obtain ⟨hb, hl, ht⟩ := State.gate_next hgate
  rw [State.flushOp_eq_flushNow hc] at ht
  exact ⟨hb, hl, (Host.Outcome.next.inj ht).symm⟩

end

/-- Settles O32: the atomic flush in one record update, and SHOW by O13. -/
theorem flushResult : Obligations.FlushResult := by
  intro s hb hl hc
  refine ⟨_, exec_flush hb hl hc, (showIsFlush.2 s).trans (exec_flush hb hl hc), ?_⟩
  rw [State.flushNow_eq, State.flushEvents, evFlush, win_columns, win_rows]
  rfl

/-- The last byte sent is the buffer's last. -/
theorem State.getLastD_fbBytes (s : State) (x : Byte) : s.fbBytes.getLastD x = s.fbRead (Config.fbSize - 1) := by
  rw [List.getLastD_eq_getLast?, List.getLast?_eq_getElem?, s.length_fbBytes, State.fbBytes,
    State.getElem?_memRead _ _ _ _ (by decide), Nat.zero_add, Option.getD_some]

/-- The four rows of a flush in order: none of them touches what the next one reads. -/
theorem runAll_flushRows {s : State} (hb : s.busy = false) (hl : s.life ≠ .unpowered) :
    runAll [.cmdCaset, .cmdRaset, .cmdRamwr, .wireData s.fbBytes] s =
      .next (s.onBus high high (s.fbRead (Config.fbSize - 1)) s.flushEvents) := by
  have hne : s.fbBytes ≠ [] := ne_nil_of_length_fbSize s.length_fbBytes
  rw [runAll_cons (exec_cmdCaset hb hl), runAll_cons (exec_cmdRaset (s := s.afterEntry _ _) hb hl),
    runAll_cons (exec_cmdRamwr (s := (s.afterEntry _ _).afterEntry _ _) hb hl),
    runAll_cons (exec_wireData (s := ((s.afterEntry _ _).afterEntry _ _).onBus _ _ _ _) hb hl hne)]
  simp only [State.afterEntry, State.onBus_onBus, State.onBus_par, State.getLastD_fbBytes]
  rfl

/-- Settles O39: a flush sends what its four rows send, and writes SHOWN. -/
theorem flushIsItsFourRows : Obligations.FlushIsItsFourRows := by
  intro s hb hl hc
  refine ⟨_, runAll_flushRows hb hl, ?_⟩
  rw [exec_flush hb hl hc, State.flushNow_eq]
  rfl

/-! ## The events of a flush read back (42_flush.md R175, R179, R180) -/

/-- Settles O33: the frames of the two window entries under each framing. -/
theorem flushFrames : Obligations.FlushFrames := by
  intro b fb
  rw [frames_evFlush, frames_evFlush]
  exact ⟨rfl, rfl⟩

/-- Settles O35: the framing does not change the bytes of an entry. -/
theorem firstElevenBytesIgnoreTheBuffer : Obligations.FirstElevenBytesIgnoreTheBuffer := by
  intro f b fb
  rw [evFlush, txBytes_append, txBytes_append, txBytes_append, txBytes_evEntry, txBytes_evEntry, txBytes_evCmd,
    txBytes_evData, win_columns, win_rows]
  rfl

/-- One chip-select assertion for each data byte framed alone. -/
theorem assertions_each (ds : List Byte) : assertions (ds.flatMap (fun d => evData [d])) = ds.length := by
  induction ds with
  | nil => rfl
  | cons d ds ih => rw [List.flatMap_cons, assertions_append, assertions_evData, ih, List.length_cons, Nat.add_comm]

/-- One chip-select assertion for each data frame of a command (40_bus_transactions.md R128, R131). -/
theorem assertions_evArgs (f : ArgFraming) (ds : List Byte) : assertions (evArgs f ds) = (argFrames f ds).length := by
  unfold evArgs argFrames
  split
  · rfl
  · cases f with
    | perEntry => exact assertions_evData ds
    | perByte => exact (assertions_each ds).trans (List.length_map _).symm

theorem assertions_evEntry (f : ArgFraming) (c : Byte) (ds : List Byte) :
    assertions (evEntry f c ds) = (argFrames f ds).length + 1 := by
  rw [evEntry, assertions_append, assertions_evCmd, assertions_evArgs, Nat.add_comm]

/-- A flush asserts chip-select once for each of its frames. -/
theorem assertions_evFlush (f : ArgFraming) (b : CmdBytes) (fb : List Byte) :
    assertions (evFlush f b fb) = (frames (evFlush f b fb)).length := by
  rw [frames_evFlush, evFlush, assertions_append, assertions_append, assertions_append, assertions_evEntry,
    assertions_evEntry, assertions_evCmd, assertions_evData, win_columns, win_rows]
  simp only [List.length_append, List.length_cons, List.length_nil]

/-- The mode-select level at each byte of a flush: the eleven bytes before the bulk frame, and then data. -/
theorem dcAtTx_evFlush (v : Option Level) (f : ArgFraming) (b : CmdBytes) (fb : List Byte) :
    dcAtTx v (evFlush f b fb) =
      [some 0, some 1, some 1, some 1, some 1, some 0, some 1, some 1, some 1, some 1, some 0]
        ++ List.replicate fb.length (some 1) := by
  have hbulk : ∀ w, dcAtTx w (evData fb) = List.replicate fb.length (some high) := by
    intro w
    rw [← List.append_nil (evData fb), dcAtTx_evData, List.map_const', dcAtTx, List.append_nil]
  rw [evFlush, List.append_assoc, List.append_assoc, dcAtTx_evEntry, dcAtTx_evEntry, dcAtTx_evCmd, hbulk, win_columns,
    win_rows]
  rfl

theorem length_txBytes_evFlush (f : ArgFraming) (b : CmdBytes) (fb : List Byte) :
    (txBytes (evFlush f b fb)).length = 11 + fb.length := by
  rw [firstElevenBytesIgnoreTheBuffer, List.length_append]
  rfl

theorem count_low_dcAtTx_evFlush (v : Option Level) (f : ArgFraming) (b : CmdBytes) (fb : List Byte) :
    (dcAtTx v (evFlush f b fb)).count (some 0) = 3 := by
  rw [dcAtTx_evFlush, List.count_append, List.count_replicate, if_neg (by decide)]
  rfl

theorem count_high_dcAtTx_evFlush (v : Option Level) (f : ArgFraming) (b : CmdBytes) (fb : List Byte) :
    (dcAtTx v (evFlush f b fb)).count (some 1) = 8 + fb.length := by
  rw [dcAtTx_evFlush, List.count_append, List.count_replicate_self]
  rfl

/-- Settles O34: the counts are read off the event lists, the frames, the bytes and the levels. -/
theorem flushCounts : Obligations.FlushCounts := by
  intro b fb h
  obtain ⟨hentry, hbyte⟩ := flushFrames b fb
  refine ⟨length_evFlush_perEntry b fb h, length_evFlush_perByte b fb h, fun c w => length_evEntry_four c w, rfl, ?_,
    ?_, ?_, fun f => ⟨?_, ?_, ?_, count_low_dcAtTx_evFlush none f b fb, ?_⟩⟩
  · rw [length_evData, h]
    rfl
  · rw [assertions_evFlush, hentry]
    rfl
  · rw [assertions_evFlush, hbyte]
    rfl
  · rw [length_txBytes_evFlush, h]
    rfl
  · cases f with
    | perEntry => rw [hentry]; rfl
    | perByte => rw [hbyte]; rfl
  · cases f with
    | perEntry => rw [hentry]; rfl
    | perByte => rw [hbyte]; rfl
  · rw [count_high_dcAtTx_evFlush, h]
    rfl

/-! ## The panel image (42_flush.md R176, R180) -/

/-- A run without a writer of SHOWN keeps it (10_state.md R33). -/
theorem runAll_shown {is : List Instr} {t u : State} (his : ∀ i ∈ is, writesShown i = false)
    (h : runAll is t = .next u) : u.shown = t.shown := by
  induction is generalizing t with
  | nil => rw [Host.Outcome.next.inj h]
  | cons i is ih =>
    obtain ⟨hi, his⟩ := List.forall_mem_cons.1 his
    obtain ⟨v, hx, hv⟩ := runAll_next h
    rw [ih his hv, (exec_shape hx).shown hi]

/-- Settles O37: the flush leaves its promise, which no instruction of the run writes. -/
theorem panelKeepsTheImageUntilTheNextFlush : Obligations.PanelKeepsTheImageUntilTheNextFlush := by
  intro f s t hf hc h
  obtain ⟨-, -, rfl⟩ := exec_isFlush_next hf hc h
  exact ⟨s.flushNow_shown, fun is u his hrun => runAll_shown his hrun⟩

/-- Settles O38: the first flush writes nothing that the second one reads. -/
theorem secondFlushRepeatsTheFirst : Obligations.SecondFlushRepeatsTheFirst := by
  intro s t hc h
  obtain ⟨hb, hl, rfl⟩ := exec_isFlush_next rfl hc h
  refine ⟨s.flushNow.flushNow, s.flushEvents, exec_flush (by simpa using hb) (by simpa using hl) (by simpa using hc),
    s.flushNow_trace, ?_, ?_⟩
  · rw [State.flushNow_trace s.flushNow, State.flushNow_flushEvents]
  · rw [State.flushNow_shown s.flushNow, State.flushNow_fbBytes, State.flushNow_promise, State.flushNow_shown]

end Sys2Proof.Machine

/-! PROOF. Family 43_buffer_access: the frame-buffer port stores and returns one byte, refuses what is no address of the
buffer, and the backlight identity is read and never written after construction. -/

namespace Sys2Proof.Machine

/-! ## Puts on the buffer (43_buffer_access.md R191) -/

theorem State.fbRead_fbPut_same (s : State) (a : Nat) (b : Byte) : (s.fbPut a b).fbRead a = b := by
  rw [State.fbRead_fbPut, if_pos rfl]

theorem State.fbRead_fbPut_other (s : State) {a x : Nat} (hx : x ≠ a) (b : Byte) :
    (s.fbPut a b).fbRead x = s.fbRead x := by
  rw [State.fbRead_fbPut, if_neg hx]

section
variable {s : State} {a : Nat}

/-- Of two puts at one address the later stays: both sides read alike, so they are one state. -/
theorem State.fbPut_fbPut (hw : s.fbWf = true) (ha : a < Config.fbSize) (b c : Byte) :
    (s.fbPut a b).fbPut a c = s.fbPut a c := by
  refine State.fb_ext (s := s) rfl rfl (State.fbWf_fbPut _ a c ha (s.fbWf_fbPut a b ha hw)) (s.fbWf_fbPut a c ha hw)
    fun x => ?_
  obtain rfl | hx := eq_or_ne x a
  · rw [State.fbRead_fbPut_same, State.fbRead_fbPut_same]
  · rw [State.fbRead_fbPut_other _ hx, State.fbRead_fbPut_other _ hx, State.fbRead_fbPut_other _ hx]

/-- Putting back the byte an address holds changes no read, so it changes nothing. -/
theorem State.fbPut_fbRead (hw : s.fbWf = true) (ha : a < Config.fbSize) : s.fbPut a (s.fbRead a) = s := by
  refine State.fb_ext (s := s) rfl rfl (s.fbWf_fbPut a _ ha hw) hw fun x => ?_
  obtain rfl | hx := eq_or_ne x a
  · exact s.fbRead_fbPut_same x _
  · exact s.fbRead_fbPut_other hx _

end

/-! ## The port's instructions (43_buffer_access.md R192, R193, R195) -/

section
variable {s : State} {a : Half}

/-- Once the gate is open, only the address can refuse an access (60_exceptions.md R206). -/
theorem verdict_fbRead (hg : gateVerdict s = none) (a : Half) :
    verdict (.fbRead a) s = if addressExists a = false then some .badAddress else none := by
  rw [verdict, hg, Option.none_or]

theorem verdict_fbWrite (hb : s.busy = false) (hl : s.life ≠ .unpowered) (a : Half) (b : Byte) :
    verdict (.fbWrite a b) s = if addressExists a = false then some .badAddress else none := by
  rw [verdict, if_neg (by simp [hb]), if_neg hl]

theorem exec_fbRead (hb : s.busy = false) (hl : s.life ≠ .unpowered) (ha : a.toNat < 64800) :
    exec (.fbRead a) s = .next { s with result := .byte (s.fbRead a.toNat) } :=
  exec_of_verdict (by rw [verdict_fbRead (gateVerdict_none hb hl), if_neg (by simp [addressExists_true ha])])

/-- The byte written stays out of the verdict on FB_WRITE. -/
theorem verdict_fbWrite_eq (a : Half) (b c : Byte) (s : State) :
    verdict (.fbWrite a b) s = verdict (.fbWrite a c) s := rfl

/-- The inversion of an admitted FB_WRITE. -/
theorem exec_fbWrite_next {b : Byte} {t : State} (h : exec (.fbWrite a b) s = .next t) :
    s.life ≠ .unpowered ∧ a.toNat < Config.fbSize ∧ t = s.fbPut a.toNat b :=
  ⟨mt (exec_life h).2 nofun, address_lt_of_exec_fbWrite h, (exec_next h).2⟩

end

/-! ## The obligations of 43_buffer_access -/

/-- Settles O40: an admitted write is one put, which is read back at its own address only. -/
theorem writeStoresOneByte : Obligations.WriteStoresOneByte := by
  intro a b s hb hl ha
  exact ⟨s.fbPut a.toNat b, exec_fbWrite b hb hl ha, rfl, s.fbRead_fbPut_same a.toNat b,
    fun x hx => s.fbRead_fbPut_other hx b⟩

/-- Settles O41: the gate is open and the address exists, so the read is admitted. -/
theorem readReturnsTheByte : Obligations.ReadReturnsTheByte := fun _ _ hb hl ha => exec_fbRead hb hl ha

/-- Settles O42: what admits the first write admits the second from the same state, and two puts at one address are the
later one. -/
theorem laterWriteWins : Obligations.LaterWriteWins := by
  intro a b c s t u hw hfirst hsecond
  obtain ⟨hl, ha, rfl⟩ := exec_fbWrite_next hfirst
  obtain ⟨-, -, rfl⟩ := exec_fbWrite_next hsecond
  rw [State.fbPut_fbPut hw ha]
  have hadmitted : verdict (.fbWrite a c) s = none := (verdict_fbWrite_eq a c b s).trans (exec_next hfirst).1
  refine ⟨exec_of_verdict hadmitted, fun hb => ?_⟩
  rw [exec_fbRead (s := s.fbPut a.toNat c) hb hl ha, State.fbRead_fbPut_same]

/-- Settles O43: the write is a put of the byte the address holds. -/
theorem rewritingAByteChangesNothing : Obligations.RewritingAByteChangesNothing := by
  intro a s hb hl ha hw
  rw [exec_fbWrite _ (by simp [hb]) hl ha, State.fbPut_fbRead hw ha]

/-- Settles O44: with everything else in order the address alone decides, and it is compared, not wrapped. -/
theorem badAddressesAreRefused : Obligations.BadAddressesAreRefused := by
  intro a b s hb hl ha
  have hno : addressExists a = false := addressExists_false ha
  constructor
  · exact exec_refused_of_verdict (by rw [verdict_fbWrite hb hl, if_pos hno])
  · exact exec_refused_of_verdict (by rw [verdict_fbRead (gateVerdict_none hb hl), if_pos hno])

/-- Settles O45: BL_ID is behind the gate only, and CONSTRUCT, the one writer of CFG, is not admitted once a driver
exists. -/
theorem backlightIdentityIsReturned : Obligations.BacklightIdentityIsReturned := by
  intro s hb hl
  refine ⟨exec_of_verdict (i := .blId) (gateVerdict_none hb hl), fun i t h => ?_⟩
  have hi : i ≠ .construct := mt (exec_life h).1 hl
  rw [(exec_shape h).cfg hi]

end Sys2Proof.Machine

/-! PROOF. Family 60_exceptions: a step rests, goes on or refuses by name, and every refusal is one of the spec's list. -/

namespace Sys2Proof.Machine

section
variable {s : State}

/-! ## Words that are no instruction (60_exceptions.md R203, 30_encoding.md R106) -/

theorem State.moveIdle_idle (hs : s.seq = []) (hh : s.host = []) : s.moveIdle = .idle := by
  simp only [State.moveIdle, hs, if_pos hh]

theorem State.moveIdle_truncated (hs : s.seq = []) (hh : s.host ≠ []) (hd : decodeHost s.host = .truncated) :
    s.moveIdle = .refuse .truncated := by
  simp only [State.moveIdle, hs, if_neg hh, hd]

theorem State.moveIdle_malformedFrame {g : List Symbol} {gs : List (List Symbol)} (hs : s.seq = g :: gs)
    (hd : decodeFrame s.par.cmd g = none) : s.moveIdle = .refuse .malformedFrame := by
  simp only [State.moveIdle, hs, hd]

/-- The inversion of a refusal by the ports: which words it was for. -/
theorem State.moveIdle_refuse {r : Refusal} (h : s.moveIdle = .refuse r) :
    (s.seq = [] ∧ decodeHost s.host = .invalidOp ∧ r = .invalidOp) ∨
      (s.seq = [] ∧ s.host ≠ [] ∧ decodeHost s.host = .truncated ∧ r = .truncated) ∨
      (r = .malformedFrame ∧ ∃ g gs, s.seq = g :: gs ∧ decodeFrame s.par.cmd g = none) := by
  cases hs : s.seq with
  | cons g gs =>
    cases hd : decodeFrame s.par.cmd g with
    | some i => rw [State.moveIdle_seq hs hd] at h; cases h
    | none =>
      rw [State.moveIdle_malformedFrame hs hd] at h
      cases h
      exact .inr (.inr ⟨rfl, g, gs, rfl, hd⟩)
  | nil =>
    by_cases hh : s.host = []
    · rw [State.moveIdle_idle hs hh] at h; cases h
    cases hd : decodeHost s.host with
    | ok i rest => rw [State.moveIdle_host hs hd] at h; cases h
    | invalidOp =>
      rw [State.moveIdle_invalidOp hs hd] at h
      cases h
      exact .inl ⟨rfl, rfl, rfl⟩
    | truncated =>
      rw [State.moveIdle_truncated hs hh hd] at h
      cases h
      exact .inr (.inl ⟨rfl, hh, rfl, rfl⟩)

/-- During a flush words that are no FB_WRITE are not refused: they wait (10_state.md R34). -/
theorem State.moveInFlush_ne_refuse (s : State) (r : Refusal) : s.moveInFlush ≠ .refuse r := by
  unfold State.moveInFlush
  split
  · split <;> nofun
  · nofun

/-- The ports are asked, and can refuse, only with no operation in progress. -/
theorem State.busy_eq_false_of_nextMove_refuse {r : Refusal} (h : s.nextMove = .refuse r) : s.busy = false := by
  by_contra hb
  rw [State.nextMove, if_pos (Bool.eq_true_of_not_eq_false hb)] at h
  split at h
  · exact s.moveInFlush_ne_refuse r h
  · cases h

/-! ## Refusals of a decoded request (60_exceptions.md R203, R206) -/

variable {i : Instr}

theorem exec_refused_iff {r : Refusal} : exec i s = .refused r ↔ verdict i s = some r := by
  rw [exec_eq]
  cases verdict i s with
  | none => simp
  | some q => simp

theorem exec_next_iff : (∃ t, exec i s = .next t) ↔ verdict i s = none :=
  ⟨fun ⟨_, h⟩ => (exec_next h).1, fun h => ⟨_, exec_of_verdict h⟩⟩

theorem isFbWrite_eq_false (h : ∀ a b, i ≠ .fbWrite a b) : isFbWrite i = false := by
  cases i with
  | fbWrite a b => exact absurd rfl (h a b)
  | _ => rfl

end

/-! ## The obligations of 60_exceptions -/

/-- Settles O8: the verdict is the head of R203's list, and a step that refuses runs a refused instruction or is refused
by the port whose words it took. -/
theorem refusalsAreExactlyTheListedOnes : Obligations.RefusalsAreExactlyTheListedOnes := by
  refine ⟨fun i s r => ?_, fun i s => ?_, fun s => ?_⟩
  · rw [exec_refused_iff, verdict_eq_head]
  · rw [exec_next_iff, verdict_eq_head, List.head?_eq_none_iff]
  · cases hm : s.nextMove with
    | idle => exact .inl ⟨s, by rw [step, hm]⟩
    | event u => exact .inl ⟨u.tick, by rw [step, hm]⟩
    | run i u =>
      have hstep : step s = exec i u := by rw [step, hm]
      rw [hstep]
      cases hv : verdict i u with
      | none => exact .inl ⟨_, exec_of_verdict hv⟩
      | some r => exact .inr ⟨r, exec_refused_of_verdict hv, .inl ⟨i, u, rfl, verdict_eq_head i u ▸ hv⟩⟩
    | refuse r =>
      have hb := State.busy_eq_false_of_nextMove_refuse hm
      have hport : s.moveIdle = .refuse r := State.nextMove_idle hb ▸ hm
      refine .inr ⟨r, by rw [step, hm], .inr ?_⟩
      obtain ⟨hs, hd, hr⟩ | ⟨hs, hh, hd, hr⟩ | ⟨hr, hg⟩ := State.moveIdle_refuse hport
      · exact .inl ⟨hb, hs, hd, hr⟩
      · exact .inr (.inl ⟨hb, hs, hh, hd, hr⟩)
      · exact .inr (.inr ⟨hb, hr, hg⟩)

/-- Settles O50: `busy` stands first in R206's order, so it is the verdict wherever its condition holds. -/
theorem busyRefusesEveryRequest : Obligations.BusyRefusesEveryRequest := by
  intro i s hb h
  have hcond : isFbWrite i = false ∨ s.par.concurrentFbWrite = false := h.symm.imp_left isFbWrite_eq_false
  apply exec_refused_of_verdict
  rw [verdict_eq_head, refusalsOf, if_pos ⟨hb, hcond⟩]
  rfl

/-- Settles O6: an idle machine's step is what its ports answer. -/
theorem stepRestsOrRefusesByName : Obligations.StepRestsOrRefusesByName := by
  intro s hb
  rw [step, State.nextMove_idle hb]
  refine ⟨fun hs hh => ?_, fun hs hd => ?_, fun hs hh hd => ?_, fun g gs hs hd => ?_⟩
  · rw [State.moveIdle_idle hs hh]
  · rw [State.moveIdle_invalidOp hs hd]
  · rw [State.moveIdle_truncated hs hh hd]
  · rw [State.moveIdle_malformedFrame hs hd]

end Sys2Proof.Machine

/-! PROOF. Family 70_reset_and_hazards: what a constructed machine admits, and a flush run event by event, alone and with
frame-buffer writes between its events (70_reset_and_hazards.md R232, R241). -/

namespace Sys2Proof.Machine

/-! ## Well-formed operations after construction (70_reset_and_hazards.md R232) -/

section
variable {i : Instr} {p : Params}

/-- A well-formed access names an address of the buffer (43_buffer_access.md R193). -/
theorem fbAddress_in_range_of_wellFormed (h : i.wellFormed p = true) :
    (fbAddress i).any (fun a => decide (64800 ≤ a.toNat)) = false := by
  cases i with
  | fbWrite a b => exact decide_eq_false (Nat.not_le.2 (of_decide_eq_true h))
  | fbRead a => exact decide_eq_false (Nat.not_le.2 (of_decide_eq_true h))
  | _ => rfl

/-- A well-formed data transaction has a byte (40_bus_transactions.md R125). -/
theorem isEmptyData_of_wellFormed (h : i.wellFormed p = true) : isEmptyData i = false := by
  cases i with
  | sendData bs =>
    have hlen : 1 ≤ bs.length := of_decide_eq_true (Bool.and_eq_true_iff.1 h).1
    exact decide_eq_false (List.ne_nil_of_length_pos hlen)
  | wireData bs => exact decide_eq_false (List.ne_nil_of_length_pos (of_decide_eq_true h))
  | _ => rfl

end

/-- Settles O49: none of the conditions of R203 holds, so no refusal is left. -/
theorem everyOperationIsAdmittedAfterConstruction : Obligations.EveryOperationIsAdmittedAfterConstruction := by
  intro i s hs hw hi hraw
  obtain ⟨hl, hb⟩ : s.life ≠ .unpowered ∧ s.busy = false := by simpa [State.constructedIdle] using hs
  have hbus : ¬(isRaw i = true ∧ s.par.rawBusAccess = false) := fun ⟨h, hno⟩ => by simp [hraw h] at hno
  have hnone : refusalsOf i s = [] := by
    simp [refusalsOf, hb, hl, hi, hbus, fbAddress_in_range_of_wellFormed hw, isEmptyData_of_wellFormed hw]
  exact exec_next_iff.2 (by rw [verdict_eq_head, hnone, List.head?_nil])

/-! ## A whole flush played event by event (42_flush.md R174, R178) -/

/-- The bulk frame is the end of what a flush sends, so it is what SHOWN takes (42_flush.md R176). -/
theorem lastSent_evFlush (t : List Event) (f : ArgFraming) (b : CmdBytes) {fb : List Byte}
    (h : fb.length = Config.fbSize) : lastSent Config.fbSize (t ++ evFlush f b fb) = fb := by
  rw [lastSent, txBytes_append, firstElevenBytesIgnoreTheBuffer, ← List.append_assoc, List.length_append, h,
    Nat.add_sub_cancel, List.drop_left]

section
variable {s : State}

theorem State.sendCmdWithArgs_par (s : State) (c : Byte) (ds : List Byte) : (s.sendCmdWithArgs c ds).par = s.par := by
  rw [State.sendCmdWithArgs_eq]
  rfl

/-- Playing the events of a flush is the pseudocode of R174 without its promise. -/
theorem State.foldl_play_flushEvents (s : State) :
    { s.flushEvents.foldl State.play s with shown := s.promise s.fbBytes } = s.flushNow := by
  have hcolumns := foldl_play_evEntry s s.par.cmd.caset (win Config.xs Config.xe)
  have hrows := foldl_play_evEntry (s.sendCmdWithArgs s.par.cmd.caset (win Config.xs Config.xe)) s.par.cmd.raset
    (win Config.ys Config.ye)
  rw [State.sendCmdWithArgs_par] at hrows
  rw [State.flushEvents, evFlush, List.foldl_append, List.foldl_append, List.foldl_append, hcolumns, hrows,
    foldl_play_evCmd, foldl_play_evData]
  rfl

/-- A flush of the buffer as it is in `s`, its first `n` events played and no other thing done (10_state.md R35). -/
def State.flushedTo (s : State) (n : Nat) : State :=
  { (s.flushEvents.take n).foldl State.play s with busy := true, sp := n }

theorem State.flushedTo_flushEvents (s : State) (n : Nat) : (s.flushedTo n).flushEvents = s.flushEvents := by
  obtain ⟨c, d, r, x, h⟩ := foldl_play_frame (s.flushEvents.take n) s
  refine State.flushEvents_congr ?_ ?_
  · rw [State.flushedTo, h]
  · rw [State.flushedTo, h]

/-- The event at SP is the next one of the list. -/
theorem State.flushedTo_next {n : Nat} (h : n < s.flushEvents.length) :
    ∃ e, (s.flushedTo n).flushEvents[n]? = some e ∧
      { (s.flushedTo n).play e with sp := n + 1 } = s.flushedTo (n + 1) := by
  have he : s.flushEvents[n]? = some s.flushEvents[n] := List.getElem?_eq_getElem h
  refine ⟨s.flushEvents[n], by rw [State.flushedTo_flushEvents, he], ?_⟩
  have htake : (s.flushEvents.take (n + 1)).foldl State.play s =
      ((s.flushEvents.take n).foldl State.play s).play s.flushEvents[n] := by
    rw [List.take_add_one, he, List.foldl_append]
    rfl
  rw [State.flushedTo, State.flushedTo, htake, State.play_eq, State.play_eq]

theorem State.tick_flushedTo {n : Nat} (h : n + 1 < s.flushEvents.length) :
    (s.flushedTo n).tick = s.flushedTo (n + 1) := by
  obtain ⟨e, he, hnext⟩ := State.flushedTo_next (Nat.lt_of_succ_lt h)
  rw [← hnext]
  exact State.tick_some he (by rwa [State.flushedTo_flushEvents])

theorem State.iterate_tick_flushStart {n : Nat} (h : n < s.flushEvents.length) :
    State.tick^[n] s.flushStart = s.flushedTo n := by
  induction n with
  | zero => rfl
  | succ n ih => rw [Function.iterate_succ_apply', ih (Nat.lt_of_succ_lt h), State.tick_flushedTo h]

/-- The last event completes the trace of the flush, and SHOWN takes its bulk frame. -/
theorem State.tick_flushedTo_last {n : Nat} (h : n + 1 = s.flushEvents.length) :
    (s.flushedTo n).tick = { s.flushNow with busy := false, sp := 0 } := by
  obtain ⟨e, he, hnext⟩ := State.flushedTo_next (Nat.lt_of_succ_le h.le)
  obtain ⟨c, d, r, x, hplay⟩ := foldl_play_frame s.flushEvents s
  have hsent : lastSent Config.fbSize (s.trace ++ s.flushEvents) = s.fbBytes :=
    lastSent_evFlush _ _ _ s.length_fbBytes
  calc (s.flushedTo n).tick
    _ = State.flushEnd { (s.flushedTo n).play e with sp := n + 1 } :=
      State.tick_last he (h.trans (congrArg List.length (s.flushedTo_flushEvents n)).symm)
    _ = (s.flushedTo s.flushEvents.length).flushEnd := by rw [hnext, h]
    _ = { s.flushNow with busy := false, sp := 0 } := by
      rw [← State.foldl_play_flushEvents, State.flushedTo, List.take_length, hplay, State.flushEnd_eq,
        State.flushEnd_shown, hsent]
      rfl

end

/-- Settles O59: each event but the last adds one to what is played, and the last one ends in the atomic flush. -/
theorem uninterruptedFlushEqualsTheAtomicOne : Obligations.UninterruptedFlushEqualsTheAtomicOne := by
  intro s hb hsp
  obtain ⟨n, hn⟩ : ∃ n, s.flushEvents.length = n + 1 := ⟨_, s.length_flushEvents⟩
  rw [hn, Function.iterate_succ_apply', State.iterate_tick_flushStart (hn ▸ Nat.lt_succ_self n),
    State.tick_flushedTo_last hn.symm]
  rw [State.flushNow_eq, State.onBus, hb, hsp]

/-! ## A flush with frame-buffer writes between its events (70_reset_and_hazards.md R241) -/

/-- One move of such a flush: its next event, or a write. -/
def State.flushMove (s : State) : Option (Nat × Byte) → State
  | none => s.tick
  | some (a, b) => s.fbPut a b

theorem flushRun_eq_scanl (m : List (Option (Nat × Byte))) (s : State) : flushRun m s = m.scanl State.flushMove s := by
  induction m generalizing s with
  | nil => rfl
  | cons x m ih =>
    obtain _ | ⟨a, b⟩ := x
    · rw [flushRun, ih, List.scanl_cons]
      rfl
    · rw [flushRun, ih, List.scanl_cons]
      rfl

/-- The last state of a run. -/
def State.flushAfter (s : State) (m : List (Option (Nat × Byte))) : State := m.foldl State.flushMove s

theorem getLast?_flushRun (m : List (Option (Nat × Byte))) (s : State) :
    (flushRun m s).getLast? = some (s.flushAfter m) := by
  rw [flushRun_eq_scanl, List.getLast?_scanl, State.flushAfter]

theorem State.flushAfter_mem (s : State) (m : List (Option (Nat × Byte))) : s.flushAfter m ∈ flushRun m s :=
  List.mem_of_getLast? (getLast?_flushRun m s)

theorem State.flushAfter_concat (s : State) (m : List (Option (Nat × Byte))) (x : Option (Nat × Byte)) :
    s.flushAfter (m ++ [x]) = (s.flushAfter m).flushMove x := by
  rw [State.flushAfter, List.foldl_concat, State.flushAfter]

/-- A longer run goes through the states of a shorter one. -/
theorem flushRun_subset_concat (m : List (Option (Nat × Byte))) (x : Option (Nat × Byte)) (s : State) :
    flushRun m s ⊆ flushRun (m ++ [x]) s := by
  rw [flushRun_eq_scanl, flushRun_eq_scanl, List.scanl_append]
  exact List.subset_append_left _ _

/-- Of the bulk frame of a flush of `fb`, each byte among the first `n` events is one that its address held in one of
the states `seen`. -/
def HeldMeanwhile (seen : List State) (f : ArgFraming) (fb : List Byte) (n : Nat) : Prop :=
  ∀ i, i < Config.fbSize → bulkStart f + i < n → ∃ v ∈ seen, fb[i]? = some (v.fbRead i)

/-- `u` is a state of the flush that `s` began, after `n` of its events, and `seen` are states of that flush: what it has
sent are the first `n` events of a flush of bytes that their addresses held meanwhile. -/
structure State.TornFlush (s : State) (seen : List State) (n : Nat) (u : State) : Prop where
  par  : u.par = s.par
  life : u.life = s.life
  sp   : u.sp = n
  sent : ∃ fb, fb.length = Config.fbSize ∧ HeldMeanwhile seen s.par.argFraming fb n ∧
    u.trace = s.trace ++ (evFlush s.par.argFraming s.par.cmd fb).take n

/-- Byte `i` of the bulk frame, by its event. -/
theorem getElem?_bulk_eq_tx_iff {f : ArgFraming} {b : CmdBytes} {fb : List Byte} {i : Nat} {x : Byte}
    (hi : i < fb.length) : (evFlush f b fb)[bulkStart f + i]? = some (.tx x) ↔ fb[i]? = some x := by
  rw [evFlush_bulk f b fb i hi, List.getElem?_eq_getElem hi, Option.some.injEq, Event.tx.injEq, Option.some.injEq]

section
variable {s u : State} {seen seen' : List State} {n : Nat}

theorem HeldMeanwhile.mono {f : ArgFraming} {fb : List Byte} (h : HeldMeanwhile seen f fb n) (hseen : seen ⊆ seen') :
    HeldMeanwhile seen' f fb n := by
  intro i hi hn
  obtain ⟨v, hv, hread⟩ := h i hi hn
  exact ⟨v, hseen hv, hread⟩

/-- The next event of `u`, sent after the first `n` of a flush of `fb`: the byte it may carry is the one `u` holds. -/
theorem HeldMeanwhile.next {fb fb' : List Byte} {e : Event}
    (h : HeldMeanwhile seen u.par.argFraming fb n) (hu : u ∈ seen) (hfb : fb.length = Config.fbSize)
    (hfb' : fb'.length = Config.fbSize) (he : u.flushEvents[n]? = some e)
    (htake : (evFlush u.par.argFraming u.par.cmd fb').take (n + 1) =
      (evFlush u.par.argFraming u.par.cmd fb).take n ++ [e]) :
    HeldMeanwhile seen u.par.argFraming fb' (n + 1) := by
  have hlen : ((evFlush u.par.argFraming u.par.cmd fb).take n).length = n := by
    rw [List.length_take, u.length_evFlush hfb]
    exact min_eq_left (List.getElem?_eq_some_iff.1 he).1.le
  intro i hi hn
  have hbyte : ∀ x, ((evFlush u.par.argFraming u.par.cmd fb).take n ++ [e])[bulkStart u.par.argFraming + i]? =
      some (.tx x) → fb'[i]? = some x := by
    intro x hx
    rw [← htake, List.getElem?_take_of_lt hn] at hx
    exact (getElem?_bulk_eq_tx_iff (hfb'.symm ▸ hi)).1 hx
  rcases (Nat.lt_succ_iff.1 hn).lt_or_eq with hold | hnew
  · obtain ⟨v, hv, hread⟩ := h i hi hold
    refine ⟨v, hv, hbyte _ ?_⟩
    rw [List.getElem?_append_left (hlen.symm ▸ hold), List.getElem?_take_of_lt hold]
    exact (getElem?_bulk_eq_tx_iff (hfb.symm ▸ hi)).2 hread
  · refine ⟨u, hu, hbyte _ ?_⟩
    rw [List.getElem?_append_right (hlen.le.trans hnew.ge), hlen, hnew, Nat.sub_self, List.getElem?_cons_zero, ← he,
      ← hnew]
    exact u.flushEvents_bulk hi

theorem State.TornFlush.mono (h : s.TornFlush seen n u) (hseen : seen ⊆ seen') : s.TornFlush seen' n u := by
  obtain ⟨fb, hfb, hheld, htrace⟩ := h.sent
  exact ⟨h.par, h.life, h.sp, fb, hfb, hheld.mono hseen, htrace⟩

/-- A flush that begins has sent nothing (10_state.md R35). -/
theorem State.TornFlush.start (s : State) (seen : List State) : s.TornFlush seen 0 s.flushStart :=
  ⟨rfl, rfl, rfl, s.fbBytes, s.length_fbBytes, nofun, (List.append_nil _).symm⟩

/-- A write sends nothing. -/
theorem State.TornFlush.fbPut (h : s.TornFlush seen n u) (a : Nat) (b : Byte) : s.TornFlush seen n (u.fbPut a b) :=
  ⟨h.par, h.life, h.sp, h.sent⟩

/-- The next event reads the buffer as it is in `u`. -/
theorem State.TornFlush.play (h : s.TornFlush seen n u) (hu : u ∈ seen) {e : Event} (he : u.flushEvents[n]? = some e) :
    s.TornFlush seen (n + 1) { u.play e with sp := n + 1 } := by
  obtain ⟨hpar, hlife, -, fb, hfb, hheld, htrace⟩ := h
  rw [← hpar] at hheld htrace
  obtain ⟨fb', hfb', htake⟩ := evFlush_next _ _ (hfb.trans u.length_fbBytes.symm) he
  rw [u.length_fbBytes] at hfb'
  rw [State.play_eq]
  refine ⟨hpar, hlife, rfl, fb', hfb', hpar ▸ hheld.next hu hfb hfb' he htake, ?_⟩
  rw [← hpar, htake, ← List.append_assoc, ← htrace]

theorem State.TornFlush.length_flushEvents (h : s.TornFlush seen n u) : u.flushEvents.length = s.flushEvents.length :=
  State.length_flushEvents_congr h.par

theorem State.TornFlush.exists_event (h : s.TornFlush seen n u) (hn : n < s.flushEvents.length) :
    ∃ e, u.flushEvents[n]? = some e :=
  ⟨_, List.getElem?_eq_getElem (h.length_flushEvents.symm ▸ hn)⟩

theorem State.TornFlush.tick (h : s.TornFlush seen n u) (hu : u ∈ seen) (hn : n + 1 < s.flushEvents.length) :
    s.TornFlush seen (n + 1) u.tick := by
  obtain ⟨e, he⟩ := h.exists_event (Nat.lt_of_succ_lt hn)
  obtain rfl := h.sp
  rw [State.tick_some he (by rwa [h.length_flushEvents])]
  exact h.play hu he

/-- The last event leaves in SHOWN a whole bulk frame of bytes held meanwhile. -/
theorem State.TornFlush.tick_last (h : s.TornFlush seen n u) (hu : u ∈ seen) (hn : n + 1 = s.flushEvents.length) :
    u.tick.busy = false ∧ ∃ bytes, u.tick.shown = s.promise bytes ∧ bytes.length = Config.fbSize ∧
      HeldMeanwhile seen s.par.argFraming bytes s.flushEvents.length := by
  obtain ⟨e, he⟩ := h.exists_event (Nat.lt_of_succ_le hn.le)
  obtain ⟨-, hlife, -, fb, hfb, hheld, htrace⟩ := h.play hu he
  have hlast : u.tick = State.flushEnd { u.play e with sp := n + 1 } := by
    obtain rfl := h.sp
    exact State.tick_last he (hn.trans h.length_flushEvents.symm)
  rw [hlast]
  refine ⟨rfl, fb, ?_, hfb, hn ▸ hheld⟩
  rw [hn, List.take_of_length_le (s.length_evFlush hfb).le] at htrace
  rw [State.flushEnd_shown, htrace, lastSent_evFlush _ _ _ hfb, State.promise, hlife, State.promise]

end

/-- Every state of a run that has not played its last event is torn within the bound. -/
theorem State.tornFlush_flushAfter (s : State) (m : List (Option (Nat × Byte)))
    (h : m.count none < s.flushEvents.length) :
    s.TornFlush (flushRun m s.flushStart) (m.count none) (s.flushStart.flushAfter m) := by
  induction m using List.reverseRecOn with
  | nil => exact .start s _
  | append_singleton m x ih =>
    rw [State.flushAfter_concat]
    have hmem := s.flushStart.flushAfter_mem m
    have hsub := flushRun_subset_concat m x s.flushStart
    cases x with
    | none =>
      rw [List.count_append, List.count_singleton_self] at h ⊢
      exact ((ih (Nat.lt_of_succ_lt h)).tick hmem h).mono hsub
    | some w =>
      rw [List.count_append, List.count_singleton] at h ⊢
      exact ((ih h).fbPut w.1 w.2).mono hsub

/-- Settles O60: each event of the bulk frame carries the byte its address holds when it is played, and SHOWN is the frame
as it was sent. -/
theorem tornFlushShowsValuesHeldMeanwhile : Obligations.TornFlushShowsValuesHeldMeanwhile := by
  intro s t m hready hcount hlast ht
  obtain ⟨m, rfl⟩ := List.getLast?_eq_some_iff.1 hlast
  rw [List.count_append, List.count_singleton_self] at hcount
  rw [getLast?_flushRun, State.flushAfter_concat] at ht
  obtain rfl := Option.some.inj ht
  have htorn := s.tornFlush_flushAfter m (Nat.lt_of_succ_le hcount.le)
  obtain ⟨hbusy, bytes, hshown, hlen, hheld⟩ := htorn.tick_last (s.flushStart.flushAfter_mem m) hcount
  refine ⟨hbusy, bytes, hshown.trans (if_pos hready), hlen, fun i hi => ?_⟩
  have hi' : bulkStart s.par.argFraming + i < s.flushEvents.length := by
    rw [s.length_flushEvents]
    omega
  exact hheld.mono (flushRun_subset_concat m none s.flushStart) i hi hi'

end Sys2Proof.Machine
